-- ==== Sys2Proof/Word.lean ====
section
/-! DEFINITION. The machine's words: a byte, the program counter, the flags (spec/10_state.md). -/

namespace Sys2Proof

/-- A register value, a memory byte, an operand byte, an immediate: an unsigned integer 0..255 (R11). -/
abbrev Byte := BitVec 8

/-- The program counter, 9 bits wide (R36). -/
abbrev Pc := BitVec 9

/-- The flags register's 3 bits, `{L, G, E}` with E at bit 0 (R39). -/
abbrev Flags := BitVec 3

end Sys2Proof
end

