-- ==== Sys2Proof/Config.lean ====
section
/-! DEFINITION. The parameters the source leaves open (spec/00_scope.md R9), each for all its values. -/

namespace Sys2Proof

/-- `ARITH_OUT_OF_RANGE`: what ADD, SUB and MUL do when the integer result leaves 0..255 (R9, R151). -/
inductive ArithMode where
  | wrap
  | fault
deriving DecidableEq, Repr

/-- The two values of `REG_RESET` and of `FLAGS_RESET` (R9). -/
inductive ResetMode where
  | unwritten
  | zero
deriving DecidableEq, Repr

/-- `OPCODE`: the opcode byte of each of the eleven instructions whose byte the source does not give (R95). -/
structure OpcodeMap where
  add : Byte
  sub : Byte
  mul : Byte
  push : Byte
  pop : Byte
  call : Byte
  ret : Byte
  cmp : Byte
  jeq : Byte
  jmp : Byte
  jne : Byte
deriving DecidableEq, Repr

/-- The parameters a running CORE depends on. They are configuration, not state: fixed once at
construction, and no instruction reads or writes them (R45). `REG_RESET`, `FLAGS_RESET` and `MEM_INIT`
matter at reset only and are arguments of `State.resetWith` and `launch`. -/
structure Config where
  opcode : OpcodeMap
  arith : ArithMode
deriving DecidableEq, Repr

end Sys2Proof
end

