-- ==== Sys2Proof/Syntax.lean ====
section
/-! DEFINITION. The instructions: one constructor per row of spec/opcode_table.json. -/

namespace Sys2Proof

/-- The index of a general register, 0..7 (R30). The decoder refuses an operand byte 8..255, so an
instruction's indices are "already checked to be 0..7" (the header of each instruction file). -/
abbrev Reg := Fin 8

/-- Register 7, the stack pointer (R31). -/
abbrev Reg.sp : Reg := 7

/-- The fourteen mnemonics of the source's opcode table (R2). -/
inductive Mnemonic where
  | ldi | prn | hlt
  | add | sub | mul
  | push | pop
  | call | ret
  | cmp | jeq | jmp | jne
deriving DecidableEq, Repr

/-- The four instruction formats (R91). -/
inductive Format where
  | N
  | R
  | RR
  | RI
deriving DecidableEq, Repr

/-- An instruction with its operands `a`, `b` in encoding order (R91, R102). -/
inductive Instr where
  | ldi (a : Reg) (imm : Byte)
  | prn (a : Reg)
  | hlt
  | add (a b : Reg)
  | sub (a b : Reg)
  | mul (a b : Reg)
  | push (a : Reg)
  | pop (a : Reg)
  | call (a : Reg)
  | ret
  | cmp (a b : Reg)
  | jeq (a : Reg)
  | jmp (a : Reg)
  | jne (a : Reg)
deriving DecidableEq, Repr

end Sys2Proof
end

