-- ==== Sys2Proof/Decode.lean ====
section
/-! DEFINITION. The dispatch table, the decoder (total on any bytes, refusing by name) and the encoder
(spec/30_encoding.md). -/

namespace Sys2Proof

/-! ## The dispatch table (R110) -/

/-- The rows of the dispatch table, in the order of spec/opcode_table.json. -/
def Mnemonic.all : List Mnemonic :=
  [.ldi, .prn, .hlt, .add, .sub, .mul, .push, .pop, .call, .ret, .cmp, .jeq, .jmp, .jne]

/-- The format of each instruction (R91). -/
def Mnemonic.format : Mnemonic → Format
  | .hlt | .ret => .N
  | .prn | .push | .pop | .call | .jeq | .jmp | .jne => .R
  | .add | .sub | .mul | .cmp => .RR
  | .ldi => .RI

/-- The length in bytes of an instruction of each format, the opcode included (R91, R98). -/
def Format.width : Format → Nat
  | .N => 1
  | .R => 2
  | .RR | .RI => 3

/-- The recommended instantiation of OPCODE (R96). PRESUMED, unsafe (log 4): the bytes are those of the
LS-8 teaching machine, which R96 itself takes from general knowledge. -/
def OpcodeMap.recommended : OpcodeMap where
  add := 0xA0
  sub := 0xA1
  mul := 0xA2
  push := 0x45
  pop := 0x46
  call := 0x50
  ret := 0x11
  cmp := 0xA7
  jeq := 0x55
  jmp := 0x54
  jne := 0x56

/-- The opcode byte of each instruction: three are the source's (R94), eleven are OPCODE's (R95). -/
def OpcodeMap.byteOf (o : OpcodeMap) : Mnemonic → Byte
  | .ldi => 0x82
  | .prn => 0x47
  | .hlt => 0x01
  | .add => o.add
  | .sub => o.sub
  | .mul => o.mul
  | .push => o.push
  | .pop => o.pop
  | .call => o.call
  | .ret => o.ret
  | .cmp => o.cmp
  | .jeq => o.jeq
  | .jmp => o.jmp
  | .jne => o.jne

/-- Look the whole opcode byte up in the dispatch table (R97, R110). -/
def OpcodeMap.dispatch (o : OpcodeMap) (op : Byte) : Option Mnemonic :=
  Mnemonic.all.find? (fun m => o.byteOf m == op)

/-! ## The instruction's own row -/

/-- The row of the opcode table an instruction belongs to. -/
def Instr.mnemonic : Instr → Mnemonic
  | .ldi _ _ => .ldi
  | .prn _ => .prn
  | .hlt => .hlt
  | .add _ _ => .add
  | .sub _ _ => .sub
  | .mul _ _ => .mul
  | .push _ => .push
  | .pop _ => .pop
  | .call _ => .call
  | .ret => .ret
  | .cmp _ _ => .cmp
  | .jeq _ => .jeq
  | .jmp _ => .jmp
  | .jne _ => .jne

/-- An instruction's length in bytes, opcode included (R98). -/
def Instr.width (i : Instr) : Nat := i.mnemonic.format.width

/-! ## Decoding -/

/-- Why bytes are no instruction, by name. -/
inductive DecodeError where
  /-- there is no byte where the opcode should stand: the fetch is past the end of memory (R117) -/
  | noOpcode
  /-- the opcode byte is in no row of the dispatch table (R99, R111) -/
  | invalidInstruction (op : Byte)
  /-- operand byte `k` (1 or 2) lies past the end of memory (R119, check 3) -/
  | missingOperand (k : Nat)
  /-- a register operand byte is 8..255 (R92) -/
  | invalidRegister (v : Byte)
deriving DecidableEq, Repr

/-- What the decoder answers: an instruction with the bytes after it, or a refusal by name. -/
inductive Decoded where
  | instr (i : Instr) (rest : List Byte)
  | rejected (e : DecodeError)
deriving DecidableEq, Repr

/-- A register operand byte: 0..7 select a register, 8..255 select none, and no bit is ignored (R92). -/
def regOfByte (v : Byte) : Option Reg :=
  if h : v.toNat < 8 then some ⟨v.toNat, h⟩ else none

/-- Continue with the register an operand byte selects, or refuse the byte (R92). -/
def withRegByte (v : Byte) (k : Reg → Decoded) : Decoded :=
  match regOfByte v with
  | some r => k r
  | none => .rejected (.invalidRegister v)

/-- Format R: one register byte (R91, R112). -/
def decodeR (mk : Reg → Instr) : List Byte → Decoded
  | [] => .rejected (.missingOperand 1)
  | a :: rest => withRegByte a fun ra => .instr (mk ra) rest

/-- Format RR: two register bytes. Both bytes are read before either is checked, and `a` is checked
before `b` (R119). -/
def decodeRR (mk : Reg → Reg → Instr) : List Byte → Decoded
  | [] => .rejected (.missingOperand 1)
  | [_] => .rejected (.missingOperand 2)
  | a :: b :: rest => withRegByte a fun ra => withRegByte b fun rb => .instr (mk ra rb) rest

/-- Format RI: a register byte and an immediate byte; every immediate is legal (R93). -/
def decodeRI (mk : Reg → Byte → Instr) : List Byte → Decoded
  | [] => .rejected (.missingOperand 1)
  | [_] => .rejected (.missingOperand 2)
  | a :: b :: rest => withRegByte a fun ra => .instr (mk ra b) rest

/-- The operands of an instruction whose opcode is known: exactly the bytes its width covers (R113). -/
def decodeOperands (bs : List Byte) : Mnemonic → Decoded
  | .ldi => decodeRI .ldi bs
  | .prn => decodeR .prn bs
  | .hlt => .instr .hlt bs
  | .add => decodeRR .add bs
  | .sub => decodeRR .sub bs
  | .mul => decodeRR .mul bs
  | .push => decodeR .push bs
  | .pop => decodeR .pop bs
  | .call => decodeR .call bs
  | .ret => .instr .ret bs
  | .cmp => decodeRR .cmp bs
  | .jeq => decodeR .jeq bs
  | .jmp => decodeR .jmp bs
  | .jne => decodeR .jne bs

/-- The decoder: opcode, then operands, in the order of checks of R119. The list is the bytes from the
program counter on, as far as memory reaches. -/
def decode (o : OpcodeMap) : List Byte → Decoded
  | [] => .rejected .noOpcode
  | op :: rest =>
    match o.dispatch op with
    | none => .rejected (.invalidInstruction op)
    | some m => decodeOperands rest m

/-! ## Encoding -/

/-- A register's operand byte: its index as an unsigned 8-bit number (R92). -/
def byteOfReg (r : Reg) : Byte := BitVec.ofNat 8 r.val

/-- The operand bytes of an instruction, in address order (R91). -/
def Instr.operandBytes : Instr → List Byte
  | .ldi a imm => [byteOfReg a, imm]
  | .hlt | .ret => []
  | .prn a | .push a | .pop a | .call a | .jeq a | .jmp a | .jne a => [byteOfReg a]
  | .add a b | .sub a b | .mul a b | .cmp a b => [byteOfReg a, byteOfReg b]

/-- The encoder: the opcode byte, then the operand bytes at ascending addresses (R66, R91). -/
def encode (o : OpcodeMap) (i : Instr) : List Byte :=
  o.byteOf i.mnemonic :: i.operandBytes

/-! ## The host's view of a table word -/

/-- The bytes of an instruction numbered as spec/opcode_table.json numbers its bits: the first byte at
the lowest address is the least significant; bits from `nbits` on are 0. -/
def tableBytes (nbits w : Nat) : List Byte :=
  let v := w % 2 ^ nbits
  [BitVec.ofNat 8 v, BitVec.ofNat 8 (v / 256), BitVec.ofNat 8 (v / 65536)]

/-- The instruction the decoder reads from a table word, under the recommended OPCODE, the one
spec/opcode_table.json uses (R96). -/
def decodeTableWord (nbits w : Nat) : Option Instr :=
  match decode .recommended (tableBytes nbits w) with
  | .instr i _ => some i
  | .rejected _ => none

end Sys2Proof
end

