-- ==== Sys2Proof/Machine/State.lean ====
section
/-! DEFINITION. The state of the CORE (spec/10_state.md R47) as plain data, the reasons a step can stop, and
the state after reset. -/

namespace Sys2Proof.Machine

/-- A cell that is either unwritten or holds a value: the spec's own two states of a register 0..6 and
of FL (R33, R42). -/
inductive RegCell (α : Type) where
  | unwritten
  | written (v : α)
deriving DecidableEq, Repr

/-- The selector given to the ALU (R150). `other` stands for any selector that is none of the four. -/
inductive AluSel where
  | add
  | sub
  | mul
  | cmp
  | other (id : Byte)
deriving DecidableEq, Repr

/-- What an `UNWRITTEN_READ` names: a register index or FL (R246). -/
inductive Location where
  | reg (r : Reg)
  | flags
deriving DecidableEq, Repr

/-- The halt record: a code of R240 with its fields (R241). -/
inductive HaltRecord where
  /-- code 0: HLT -/
  | haltOk
  /-- code 1: a byte not in the dispatch table was fetched -/
  | invalidInstruction (opcode : Byte) (pc : Pc)
  /-- code 2: an address, an SP or a return address outside 0..255 -/
  | outOfRange (value : Int) (pc : Pc)
  /-- code 3: a register operand byte 8..255 -/
  | invalidRegister (value : Byte) (pc : Pc)
  /-- code 4: an unwritten register or unwritten FL was read -/
  | unwrittenRead (loc : Location) (pc : Pc)
  /-- code 5: a result outside 0..255 under ARITH_OUT_OF_RANGE = fault -/
  | arithRange (value : Int) (pc : Pc)
  /-- code 6: an ALU selector that is none of the four; no program reaches it (R248) -/
  | unsupportedOperation (sel : AluSel)
deriving DecidableEq, Repr

/-- The run state (R44). -/
inductive RunState where
  | running
  | halted (r : HaltRecord)
deriving DecidableEq, Repr

/-- Memory: (address, byte) pairs at strictly rising addresses, none of them 256 or more and none holding
what an unlisted address reads as (`Memory.wf`). -/
abbrev Memory := List Host.Cell

/-- What an address that the list does not name reads as. DESIGN CHOICE, unsafe (log 3): the spec leaves
the bytes outside the image to the launch input MEM_INIT (R61). -/
def Memory.unlisted : Byte := 0

/-- The complete state (R47), and `config`, the model's own field (log 6). -/
structure State where
  /-- the parameters OPCODE and ARITH_OUT_OF_RANGE; no step writes them (R45) -/
  config : Config
  /-- the 256 bytes of memory (R60) -/
  mem : Memory
  /-- `x[0]`..`x[6]` (R30, R33) -/
  gpr : Vector (RegCell Byte) 7
  /-- `x[7]`, the stack pointer, which is never unwritten (R31, R33) -/
  sp : Byte
  /-- FL (R39, R42) -/
  fl : RegCell Flags
  /-- the program counter (R35, R36) -/
  pc : Pc
  /-- RUNNING or HALTED with its record (R44) -/
  run : RunState
  /-- the bytes PRN has emitted, oldest first (R43) -/
  out : List Byte
deriving DecidableEq, Repr

/-- Why the model answers no next state. -/
inductive Fault where
  /-- raised by `step` alone, in HALTED, where "the CORE has no step" (R116); `r` is the record the CORE
  halted with. Safe: the hardware does not go on either. -/
  | halted (r : HaltRecord)
deriving DecidableEq, Repr

/-- Why the model refuses an instruction. -/
inductive Refusal where
  /-- raised by `exec` for an instruction that has no meaning yet; no instruction is in that case. Safe. -/
  | notModelled (mnemonic : String)
deriving DecidableEq, Repr

/-- A register or FL right after reset under each value of REG_RESET or FLAGS_RESET (R33, R42). -/
def RegCell.reset {α : Type} (zero : α) : ResetMode → RegCell α
  | .unwritten => .unwritten
  | .zero => .written zero

/-- The state after construction (R280), for every value of the parameters, with no byte of memory
listed. -/
def State.resetWith (c : Config) (regReset flagsReset : ResetMode) : State where
  config := c
  mem := []
  gpr := Vector.replicate 7 (RegCell.reset 0 regReset)
  sp := 0xF4
  fl := RegCell.reset 0 flagsReset
  pc := 0
  run := .running
  out := []

/-- The parameters the model takes when none are given: the recommended OPCODE (PRESUMED, log 4) and the
spec's choice `wrap` (D2, log 5). -/
def defaultConfig : Config := { opcode := .recommended, arith := .wrap }

/-- The machine right after reset. `x[0]`..`x[6]` and FL hold 0: DESIGN CHOICE, unsafe (log 1, log 2), one
of the two values R9 gives REG_RESET and FLAGS_RESET. -/
def State.reset : State := State.resetWith defaultConfig .zero .zero

end Sys2Proof.Machine
end

