-- ==== Sys2Proof/Machine/Ops.lean ====
section
/-! DEFINITION. The operations every instruction shares: raising a fault, the one range check, the bytes of
memory, the program counter, the output channel. -/

namespace Sys2Proof.Machine

/-- What executing an instruction answers. -/
abbrev Result := Host.Outcome State Fault Refusal

/-! ## Leaving RUNNING -/

/-- `raise F(info)` (R12, R241): the run state becomes HALTED with the record and nothing else changes;
`pc` keeps the address of the faulting instruction (R119). It is the CORE's whole trap entry (R252);
there is no trap return beside it (R253). -/
def raise (r : HaltRecord) (s : State) : Result := .next { s with run := .halted r }

/-- `halt(ok)` (R241). -/
def haltOk (s : State) : Result := .next { s with run := .halted .haltOk }

/-- The one range check of the CORE: an integer used as an address, a stack pointer or a return address
must be 0..255, else `OUT_OF_RANGE(value, pc)`; there is no wrap-around (R62, R63, R171, R190). -/
def withAddress (value : Int) (s : State) (k : Byte → Result) : Result :=
  if 0 ≤ value ∧ value ≤ 255 then k (BitVec.ofInt 8 value) else raise (.outOfRange value s.pc) s

/-! ## Memory -/

/-- The byte at an address. -/
def Memory.get : Memory → Nat → Byte
  | [], _ => Memory.unlisted
  | (b, w) :: rest, a => if a = b then w else Memory.get rest a

/-- A cell in front of a memory, left out when it holds what an unlisted address reads as. -/
def Memory.cons (a : Nat) (v : Byte) (m : Memory) : Memory :=
  if v = Memory.unlisted then m else (a, v) :: m

/-- Store a byte, keeping the canonical form. -/
def Memory.put : Memory → Nat → Byte → Memory
  | [], a, v => Memory.cons a v []
  | (b, w) :: rest, a, v =>
    if a < b then Memory.cons a v ((b, w) :: rest)
    else if a = b then Memory.cons a v rest
    else (b, w) :: Memory.put rest a v

/-- The canonical form from address `lo` on: strictly rising, inside 0..255, no entry that an unlisted
address would read as. -/
def Memory.wfFrom (lo : Nat) : Memory → Bool
  | [] => true
  | (a, v) :: rest => decide (lo ≤ a) && decide (a < 256) && decide (v ≠ Memory.unlisted) && Memory.wfFrom (a + 1) rest

/-- The canonical form. -/
def Memory.wf (m : Memory) : Bool := Memory.wfFrom 0 m

/-- The first `n` addresses of a memory take the bytes `f 0`, .., `f (n - 1)`. -/
def Memory.fill (f : Nat → Byte) : Nat → Memory → Memory
  | 0, m => m
  | n + 1, m => Memory.put (Memory.fill f n m) n (f n)

/-- `MemRead(addr, 1)` at an address already checked to be 0..255 (R62). -/
def State.byteAt (s : State) (a : Byte) : Byte := Memory.get s.mem a.toNat

/-- `MemWrite(addr, 1, v)` at an address already checked to be 0..255 (R62). -/
def State.store (s : State) (a v : Byte) : State := { s with mem := Memory.put s.mem a.toNat v }

/-! ## Program counter and output -/

/-- Advance the program counter by an instruction's width; past 255 it reaches 256 and does not wrap
(R36, R37, R38). -/
def State.advance (s : State) (width : Nat) : State := { s with pc := s.pc + BitVec.ofNat 9 width }

/-- Overwrite the program counter with a byte (R37, R38). -/
def State.jump (s : State) (target : Byte) : State := { s with pc := target.setWidth 9 }

/-- `Emit(v)`: append a byte to the output channel (R43). -/
def State.emit (s : State) (v : Byte) : State := { s with out := s.out ++ [v] }

end Sys2Proof.Machine
end

