-- ==== Sys2Proof/Machine/Flags.lean ====
section
/-! DEFINITION. The flags register: how CMP computes it and how a branch reads it. -/

namespace Sys2Proof.Machine

/-- `{L, G, E}` of two values compared as unsigned numbers: exactly one bit is set (R39, R150, R210). -/
def compareFlags (u v : Byte) : Flags :=
  if u.toNat = v.toNat then 0b001#3
  else if u.toNat > v.toNat then 0b010#3
  else 0b100#3

/-- Equal, bit 0 (R39). -/
def flagE (f : Flags) : Bool := f.getLsbD 0

/-- Greater-than, bit 1 (R39). -/
def flagG (f : Flags) : Bool := f.getLsbD 1

/-- Less-than, bit 2 (R39). -/
def flagL (f : Flags) : Bool := f.getLsbD 2

/-- No two flag bits are set (R42: "no state after reset has two or three flag bits set"). -/
def flagsLegal (f : Flags) : Bool :=
  !(flagE f && flagG f) && !(flagE f && flagL f) && !(flagG f && flagL f)

/-- Exactly one flag bit is set (R40). -/
def flagsOneHot (f : Flags) : Bool := flagsLegal f && (flagE f || flagG f || flagL f)

/-- `FL.E`, or `UNWRITTEN_READ(FL, pc)` before the first CMP (R41, R42, R246). -/
def withFlagE (s : State) (k : Bool → Result) : Result :=
  match s.fl with
  | .written f => k (flagE f)
  | .unwritten => raise (.unwrittenRead .flags s.pc) s

/-- `FL <- f` (R210). -/
def State.setFlags (s : State) (f : Flags) : State := { s with fl := .written f }

end Sys2Proof.Machine
end

