-- ==== Sys2Proof/Machine/Operands.lean ====
section
/-! DEFINITION. The operand forms: a named register read and written, and the stack's implicit operands. -/

namespace Sys2Proof.Machine

/-! ## Named registers -/

/-- The cell of register `r`; register 7 is SP (R31) and no register is hard-wired (R32). -/
def State.cell (s : State) (r : Reg) : RegCell Byte :=
  if h : r.val < 7 then s.gpr[r.val] else .written s.sp

/-- `x[r] <- v`, which makes the register written (R12, R33). -/
def State.setReg (s : State) (r : Reg) (v : Byte) : State :=
  if h : r.val < 7 then { s with gpr := s.gpr.set r.val (.written v) } else { s with sp := v }

/-- `x[r]`: the register's value, or `UNWRITTEN_READ(reg r, pc)` (R12, R33, R246). -/
def withReg (r : Reg) (s : State) (k : Byte → Result) : Result :=
  match s.cell r with
  | .written v => k v
  | .unwritten => raise (.unwrittenRead (.reg r) s.pc) s

/-- Two register operands, `a` read before `b`, both before anything is written (R119, R153). -/
def withRegs (a b : Reg) (s : State) (k : Byte → Byte → Result) : Result :=
  withReg a s fun u => withReg b s fun v => k u v

/-! ## The stack (R170, R171) -/

/-- The address a push writes, which is also the new SP: `SP - 1`, or `OUT_OF_RANGE(-1, pc)` when SP is 0. -/
def withPushSlot (s : State) (k : Byte → Result) : Result := withAddress (s.sp.toNat - 1) s k

/-- Push a byte at the slot: SP is decremented, then memory is written at SP (R173, R190). -/
def State.pushAt (s : State) (slot v : Byte) : State := { s with sp := slot }.store slot v

/-- The byte at SP, the top of the stack (R170, C1). -/
def State.top (s : State) : Byte := s.byteAt s.sp

/-- What register `a` holds once SP has become `slot`: `slot` itself for register 7, which is decremented
before it is read, else the value `v` read before (R173, R190, D15). -/
def afterPush (a : Reg) (slot v : Byte) : Byte := if a = Reg.sp then slot else v

end Sys2Proof.Machine
end

