-- ==== Sys2Proof/Machine/Alu.lean ====
section
/-! DEFINITION. The ALU, a pure function of two values and a selector, and the reduction of its result to 8
bits (spec/42_alu_arithmetic.md R150, R151). -/

namespace Sys2Proof.Machine

/-- The ALU (R150): an exact integer, or for CMP the flags `{L, G, E}` as an integer; `none` for a selector
that is none of the four. -/
def alu (sel : AluSel) (u v : Byte) : Option Int :=
  match sel with
  | .add => some ((u.toNat : Int) + v.toNat)
  | .sub => some ((u.toNat : Int) - v.toNat)
  | .mul => some ((u.toNat : Int) * v.toNat)
  | .cmp => some ((compareFlags u v).toNat : Int)
  | .other _ => none

/-- Use the ALU; a selector it does not know raises `UNSUPPORTED_OPERATION(sel)` (R150, R248). -/
def withAlu (sel : AluSel) (u v : Byte) (s : State) (k : Int → Result) : Result :=
  match alu sel u v with
  | some r => k r
  | none => raise (.unsupportedOperation sel) s

/-- `Reduce(r)` (R151): the result itself when it is 0..255; otherwise modulo 256 under `wrap`, and
`ARITH_RANGE(r, pc)` under `fault`. -/
def withReduced (r : Int) (s : State) (k : Byte → Result) : Result :=
  if 0 ≤ r ∧ r ≤ 255 then k (BitVec.ofInt 8 r)
  else match s.config.arith with
    | .wrap => k (BitVec.ofInt 8 (r % 256))
    | .fault => raise (.arithRange r s.pc) s

/-- The shape of ADD, SUB and MUL (R154, R155, R156): `x[a] <- Reduce(ALU(sel, x[a], x[b]))`, pc + 3. -/
def aluToReg (sel : AluSel) (a b : Reg) (s : State) : Result :=
  withRegs a b s fun u v =>
    withAlu sel u v s fun r =>
      withReduced r s fun w => .next ((s.setReg a w).advance 3)

end Sys2Proof.Machine
end

