-- ==== Sys2Proof/Machine/Arithmetic.lean ====
section
/-! DEFINITION. Arithmetic: ADD, SUB, MUL (spec/42_alu_arithmetic.md). -/

namespace Sys2Proof.Machine

/-- ADD (R154): `x[a] <- Reduce(x[a] + x[b])`; `pc <- pc + 3`; no flag is written. -/
def execAdd (a b : Reg) (s : State) : Result := aluToReg .add a b s

/-- SUB (R155): `x[a] <- Reduce(x[a] - x[b])`; `pc <- pc + 3`; no flag is written. -/
def execSub (a b : Reg) (s : State) : Result := aluToReg .sub a b s

/-- MUL (R156): `x[a] <- Reduce(x[a] * x[b])`; `pc <- pc + 3`; no flag is written. -/
def execMul (a b : Reg) (s : State) : Result := aluToReg .mul a b s

end Sys2Proof.Machine
end

