-- ==== Sys2Proof/Machine/CompareBranch.lean ====
section
/-! DEFINITION. Compare and branch: CMP, JEQ, JMP, JNE (spec/45_compare_branch.md). -/

namespace Sys2Proof.Machine

/-- CMP (R210): `FL <- ALU(CMP, x[a], x[b])`, all three bits replaced; `pc <- pc + 3`; no register is
written. -/
def execCmp (a b : Reg) (s : State) : Result :=
  withRegs a b s fun u v =>
    withAlu .cmp u v s fun f => .next ((s.setFlags (BitVec.ofInt 3 f)).advance 3)

/-- JEQ (R212): to exactly `x[a]` when E is set, else `pc + 2`. The register is read on both paths, before
the flag (R211, D16). -/
def execJeq (a : Reg) (s : State) : Result :=
  withReg a s fun t => withFlagE s fun e => .next (if e then s.jump t else s.advance 2)

/-- JMP (R213): `pc <- x[a]`. -/
def execJmp (a : Reg) (s : State) : Result := withReg a s fun t => .next (s.jump t)

/-- JNE (R214): to exactly `x[a]` when E is clear, else `pc + 2`. -/
def execJne (a : Reg) (s : State) : Result :=
  withReg a s fun t => withFlagE s fun e => .next (if e then s.advance 2 else s.jump t)

end Sys2Proof.Machine
end

