-- ==== Sys2Proof/Machine/DataOutput.lean ====
section
/-! DEFINITION. Data move, output and halt: LDI, PRN, HLT (spec/41_data_output_halt.md). -/

namespace Sys2Proof.Machine

/-- LDI (R130): `x[a] <- imm`; `pc <- pc + 3`. It reads no register. -/
def execLdi (a : Reg) (imm : Byte) (s : State) : Result := .next ((s.setReg a imm).advance 3)

/-- PRN (R131): emit `x[a]`; `pc <- pc + 2`. -/
def execPrn (a : Reg) (s : State) : Result := withReg a s fun v => .next ((s.emit v).advance 2)

/-- HLT (R133): the run state becomes HALTED(HALT_OK); `pc` stays at the HLT byte (D14). -/
def execHlt (s : State) : Result := haltOk s

end Sys2Proof.Machine
end

