-- ==== Sys2Proof/Machine/Stack.lean ====
section
/-! DEFINITION. The stack: PUSH, POP (spec/43_stack.md). -/

namespace Sys2Proof.Machine

/-- PUSH (R173): `SP <- SP - 1`; `mem[SP] <- x[a]`; `pc <- pc + 2`. The register is read before the range
check, and PUSH R7 stores the decremented SP (D15). -/
def execPush (a : Reg) (s : State) : Result :=
  withReg a s fun v =>
    withPushSlot s fun slot => .next ((s.pushAt slot (afterPush a slot v)).advance 2)

/-- The new SP of a POP as an integer: for register 7 the popped byte plus 1, since register 7 receives the
byte and is then incremented, else SP + 1 (R174, D15). -/
def popNewSp (a : Reg) (s : State) : Int := (if a = Reg.sp then s.top.toNat else s.sp.toNat) + 1

/-- POP (R174): `x[a] <- mem[SP]`; `SP <- SP + 1`; `pc <- pc + 2`; a new SP of 256 raises
`OUT_OF_RANGE(256, pc)` before anything is written. -/
def execPop (a : Reg) (s : State) : Result :=
  withAddress (popNewSp a s) s fun t =>
    .next ({ s.setReg a s.top with sp := t }.advance 2)

end Sys2Proof.Machine
end

