-- ==== Sys2Proof/Machine/Subroutine.lean ====
section
/-! DEFINITION. Subroutine call and return: CALL, RET (spec/44_subroutine.md). -/

namespace Sys2Proof.Machine

/-- CALL's return address: the byte after the CALL, or `OUT_OF_RANGE(256, pc)` at pc = 254 (R190, D9). -/
def withReturnAddress (s : State) (k : Byte → Result) : Result := withAddress (s.pc.toNat + 2) s k

/-- CALL (R190): push `pc + 2`; `pc <- x[a]`. The register is read first, then the return address and SP
are checked; CALL R7 jumps to the decremented SP (D15). -/
def execCall (a : Reg) (s : State) : Result :=
  withReg a s fun v =>
    withReturnAddress s fun ra =>
      withPushSlot s fun slot => .next ((s.pushAt slot ra).jump (afterPush a slot v))

/-- RET (R191): `pc <- mem[SP]`; `SP <- SP + 1`; SP = 255 raises `OUT_OF_RANGE(256, pc)`. An unmatched RET
jumps to whatever byte stands at SP. -/
def execRet (s : State) : Result :=
  withAddress (s.sp.toNat + 1) s fun t => .next ({ s with sp := t }.jump s.top)

end Sys2Proof.Machine
end

