-- ==== Sys2Proof/Machine/Fetch.lean ====
section
/-! DEFINITION. Fetching an instruction's bytes, and the fault a refused decoding raises
(spec/30_encoding.md R113, R117, R119). -/

namespace Sys2Proof.Machine

/-- At most `n` bytes of memory from address `a` on, as far as memory reaches. -/
def Memory.bytesFrom (m : Memory) : Nat → Nat → List Byte
  | 0, _ => []
  | n + 1, a => if a < 256 then Memory.get m a :: Memory.bytesFrom m n (a + 1) else []

/-- The bytes the decoder may look at: at most three from `pc` on. Of these it takes exactly the ones the
opcode's width covers (R113), so that a byte beyond the instruction has no effect (R100; log 8). -/
def State.fetchBytes (s : State) : List Byte := Memory.bytesFrom s.mem 3 s.pc.toNat

/-- Fetch and decode at `pc`, in the memory as it stands before the instruction writes (R75, R113). -/
def State.fetch (s : State) : Decoded := decode s.config.opcode s.fetchBytes

/-- The record of the fault a refused decoding raises: a fetch or an operand byte past 255 is
`OUT_OF_RANGE` of that address (R117, R119, R120). -/
def recordOf (e : DecodeError) (pc : Pc) : HaltRecord :=
  match e with
  | .noOpcode => .outOfRange pc.toNat pc
  | .invalidInstruction op => .invalidInstruction op pc
  | .missingOperand k => .outOfRange (pc.toNat + k) pc
  | .invalidRegister v => .invalidRegister v pc

/-- Store bytes from address `a` on; a byte past the end of memory is dropped. Used by the host's view
(`withFetchWord`) only, no instruction stores so. -/
def Memory.putFrom (m : Memory) : Nat → List Byte → Memory
  | _, [] => m
  | a, b :: bs => Memory.putFrom (if a < 256 then Memory.put m a b else m) (a + 1) bs

end Sys2Proof.Machine
end

