-- ==== Sys2Proof/Machine/Step.lean ====
section
/-! DEFINITION. One step of the CORE: one whole instruction, atomic (spec/30_encoding.md R116 to R120). -/

namespace Sys2Proof.Machine

/-- `Step()` of R120. In HALTED the CORE has no step (R116). -/
def step (s : State) : Host.Outcome State Fault Refusal :=
  match s.run with
  | .halted r => .fault (.halted r)
  | .running =>
    match s.fetch with
    | .instr i _ => exec i s
    | .rejected e => raise (recordOf e s.pc) s

/-- `s` with the instruction of a table word stored at `pc`, where the next step fetches. It stands for the
host's load of a program from outside the machine (R281, log 9). -/
def State.withFetchWord (s : State) (nbits w : Nat) : State :=
  { s with mem := Memory.putFrom s.mem s.pc.toNat (tableBytes nbits w) }

end Sys2Proof.Machine
end

