-- ==== Sys2Proof/Machine/HostView.lean ====
section
/-! DEFINITION. What the host reads of the CORE: the halt code, the exit status, the trace line
(spec/60_exceptions.md R240, R260; spec/70_reset_and_hazards.md R285, R287). Nothing here writes the CORE. -/

namespace Sys2Proof.Machine

/-- The code of a halt record (R240). -/
def haltCode : HaltRecord → Nat
  | .haltOk => 0
  | .invalidInstruction _ _ => 1
  | .outOfRange _ _ => 2
  | .invalidRegister _ _ => 3
  | .unwrittenRead _ _ => 4
  | .arithRange _ _ => 5
  | .unsupportedOperation _ => 6

/-- Whether the host's exit status for a halted run is 0: on HLT, and on no fault (R285). The spec does not
say which non-zero status a fault gives. -/
def exitsZero (r : HaltRecord) : Bool := haltCode r == 0

/-- The `pc` field of a fault record; HALT_OK and UNSUPPORTED_OPERATION have none (R240). -/
def recordPc : HaltRecord → Option Pc
  | .haltOk => none
  | .invalidInstruction _ p => some p
  | .outOfRange _ p => some p
  | .invalidRegister _ p => some p
  | .unwrittenRead _ p => some p
  | .arithRange _ p => some p
  | .unsupportedOperation _ => none

/-- What a trace line shows: PC, the next three memory bytes, all 8 registers (R260). -/
structure TraceLine where
  pc : Pc
  bytes : List (Option Byte)
  regs : List (RegCell Byte)
deriving DecidableEq, Repr

/-- A byte as the trace reads it: nothing where there is no such address (R260: its reads raise no fault). -/
def traceByte (s : State) (a : Nat) : Option Byte :=
  if a < 256 then some (Memory.get s.mem a) else none

/-- The trace line before a step, read by an observer that changes nothing (R260, D27). -/
def traceLine (s : State) : TraceLine where
  pc := s.pc
  bytes := [traceByte s s.pc.toNat, traceByte s (s.pc.toNat + 1), traceByte s (s.pc.toNat + 2)]
  regs := (List.finRange 8).map s.cell

end Sys2Proof.Machine
end

