-- ==== Sys2Proof/WellFormed.lean ====
section
/-! DEFINITION. What makes an OPCODE instantiation, an instruction under it, and a program image
well-formed. -/

namespace Sys2Proof

/-- R95: OPCODE is injective and takes none of the values 0x01, 0x47, 0x82, that is, the fourteen opcode
bytes are pairwise different. -/
def OpcodeMap.wf (o : OpcodeMap) : Bool :=
  decide (Mnemonic.all.map o.byteOf).Nodup

/-- An instruction is well-formed under an instantiation of OPCODE when its opcode byte is no other
row's. Its operands are in range by their types (`Reg`, R92, and `Byte`, R93). -/
def Instr.wf (o : OpcodeMap) (i : Instr) : Bool :=
  Mnemonic.all.all fun m => m == i.mnemonic || o.byteOf m != o.byteOf i.mnemonic

/-- An image the host may launch: at most 256 bytes (R61, R283). -/
def imageWf (image : List Byte) : Bool := decide (image.length ≤ 256)

end Sys2Proof
end

