-- ==== Sys2Proof/Machine/Launch.lean ====
section
/-! DEFINITION. Launch: construction, then the one load of the image over MEM_INIT
(spec/70_reset_and_hazards.md R280, R281; spec/20_memory.md R61). -/

namespace Sys2Proof.Machine

/-- The byte at address `a` at launch: the image's below its length, MEM_INIT's at the other addresses
(R61). -/
def launchByte (memInit : Vector Byte 256) (image : List Byte) (a : Nat) : Byte :=
  match image[a]? with
  | some v => v
  | none => if h : a < 256 then memInit[a] else Memory.unlisted

/-- The state before the first step, for every value of the parameters; an image of more than 256 bytes is
refused by the host and never launched (R283). -/
def launch (c : Config) (regReset flagsReset : ResetMode) (memInit : Vector Byte 256)
    (image : List Byte) : Option State :=
  if imageWf image then
    some { State.resetWith c regReset flagsReset with mem := Memory.fill (launchByte memInit image) 256 [] }
  else none

end Sys2Proof.Machine
end

