-- ==== Sys2Proof/Safety.lean ====
section
/-! DEFINITION. The terms claims are stated in: the invariant of every run, what a step leaves unchanged, and
how a run ends. -/

namespace Sys2Proof.Machine

/-! ## The invariant -/

/-- FL is unwritten or has at most one bit set (R42). -/
def State.flOk (s : State) : Bool :=
  match s.fl with
  | .unwritten => true
  | .written f => flagsLegal f

/-- The record of a halted CORE names the address the program counter still holds (R241). -/
def State.recordOk (s : State) : Bool :=
  match s.run with
  | .running => true
  | .halted r => match recordPc r with
    | none => true
    | some p => p == s.pc

/-- What holds of every state a run reaches: OPCODE is well-formed (R95), memory is in canonical form, the
program counter is 0..256 (R36), FL is legal (R42), the halt record is precise (R241). -/
abbrev State.Inv (s : State) : Prop :=
  s.config.opcode.wf = true ∧ s.mem.wf = true ∧ s.pc.toNat ≤ 256 ∧ s.flOk = true ∧ s.recordOk = true

/-! ## Frames -/

/-- Every register outside `except` holds what it held. -/
def RegsKept (s t : State) (except : List Reg) : Prop := ∀ r, r ∉ except → t.cell r = s.cell r

/-- Every byte of memory outside the addresses `except` reads as it read. -/
def MemKept (s t : State) (except : List Nat) : Prop :=
  ∀ a, a ∉ except → Memory.get t.mem a = Memory.get s.mem a

/-! ## Instructions in memory -/

/-- Memory holds the bytes `bs` at the addresses from `a` on. -/
def BytesAt (m : Memory) (a : Nat) (bs : List Byte) : Prop :=
  ∀ k, (h : k < bs.length) → Memory.get m (a + k) = bs[k]

/-! ## Runs -/

/-- `t` is reached from `s` by steps. -/
inductive Reaches : State → State → Prop where
  | refl (s : State) : Reaches s s
  | tail {s t u : State} : Reaches s t → step t = .next u → Reaches s u

/-- The step from `s` to `t` stored a byte at address `a`: it completed a PUSH or a CALL whose slot `SP - 1`
is `a`, the only stores of the CORE (R64). -/
def StoresAt (s t : State) (a : Nat) : Prop :=
  t.run = .running ∧ s.sp.toNat = a + 1 ∧
    ∃ r rest, s.fetch = .instr (.push r) rest ∨ s.fetch = .instr (.call r) rest

/-- `t` is reached from `s` by steps none of which stores at address `a`. -/
inductive ReachesWithoutStore (a : Nat) : State → State → Prop where
  | refl (s : State) : ReachesWithoutStore a s s
  | tail {s t u : State} : ReachesWithoutStore a s t → step t = .next u → ¬ StoresAt t u a →
      ReachesWithoutStore a s u

/-- Fetching in the memory of `s`, at any program counter whose fetch covers address `a`, reads `v` there,
as the opcode or as an operand byte. -/
def FetchReads (s : State) (a : Nat) (v : Byte) : Prop :=
  ∀ (p : Pc) (k : Nat), k < 3 → p.toNat + k = a → ({ s with pc := p } : State).fetchBytes[k]? = some v

/-- A run has ended well (R287). -/
def State.endedWell (s : State) : Prop := s.run = .halted .haltOk

/-- A run has ended in a fault (R287). -/
def State.endedInFault (s : State) : Prop := ∃ r, r ≠ .haltOk ∧ s.run = .halted r

end Sys2Proof.Machine
end

