-- ==== Sys2Proof/Certificates/Slice0/Obligations.lean ====
section
/-! DEFINITION. The statements for the provers. Each docstring names the rule of spec/ it formalises; where a
clause rests on a decision of the spec's own (D<n> of spec/92_eei_decisions.md) or on the model's log, it says
so. -/

open Sys2Proof Sys2Proof.Machine

/-! ## Reset and launch -/

/-- What `State.reset` holds. `pc`, SP, the run state and `out` are the spec's (R47); the registers
`x[0]`..`x[6]` and FL at 0, memory at 0 and the parameters are the model's choices (logs 1 to 5). -/
def Obligations.ResetValues : Prop :=
  State.reset.pc = 0 ∧ State.reset.cell Reg.sp = .written 0xF4 ∧ State.reset.run = .running ∧
  State.reset.out = [] ∧ (∀ r, r ≠ Reg.sp → State.reset.cell r = .written 0) ∧
  State.reset.fl = .written 0 ∧ (∀ a, Memory.get State.reset.mem a = 0) ∧
  State.reset.config.opcode = .recommended ∧ State.reset.config.arith = .wrap

/-- Every row of the reset table (R47, R61, R280), for every value of OPCODE, ARITH_OUT_OF_RANGE, REG_RESET,
FLAGS_RESET and MEM_INIT (the spec's decisions D1 to D5) and every image that fits. The last clause, the
parameters in `config`, is the model's choice (log 6). -/
def Obligations.LaunchSetsEveryRowOfTheResetTable : Prop :=
  ∀ (c : Config) (rr fr : ResetMode) (memInit : Vector Byte 256) (image : List Byte), image.length ≤ 256 →
    ∃ s, launch c rr fr memInit image = some s ∧
      (∀ a, (h : a < image.length) → Memory.get s.mem a = image[a]) ∧
      (∀ a, (h : a < 256) → image.length ≤ a → Memory.get s.mem a = memInit[a]) ∧
      (∀ r, r ≠ Reg.sp →
        s.cell r = match rr with | .unwritten => .unwritten | .zero => .written 0) ∧
      s.cell Reg.sp = .written 0xF4 ∧
      (s.fl = match fr with | .unwritten => .unwritten | .zero => .written 0) ∧
      s.pc = 0 ∧ s.run = .running ∧ s.out = [] ∧ s.config = c

/-- An image of more than 256 bytes is never launched (R283; the spec's decision D24). -/
def Obligations.OverlongImageIsNotLaunched : Prop :=
  ∀ (c : Config) (rr fr : ResetMode) (memInit : Vector Byte 256) (image : List Byte), 256 < image.length →
    launch c rr fr memInit image = none

/-- The invariant holds at the model's reset state. -/
def Obligations.ResetMeetsInvariant : Prop := State.reset.Inv

/-- The invariant holds at every launch under a well-formed OPCODE. -/
def Obligations.LaunchMeetsInvariant : Prop :=
  ∀ (c : Config) (rr fr : ResetMode) (memInit : Vector Byte 256) (image : List Byte) (s : State),
    c.opcode.wf = true → launch c rr fr memInit image = some s → s.Inv

/-! ## Whole-machine rules -/

/-- Every step keeps the invariant: OPCODE well-formed (R95), memory canonical, `pc` 0..256 (R36), at most
one flag set (R42), the halt record naming the `pc` the CORE still holds (R241). -/
def Obligations.StepKeepsInvariant : Prop :=
  ∀ s t : State, s.Inv → step s = .next t → t.Inv

/-- The CORE starts RUNNING at 0 (R116). Every RUNNING state has a next state, whatever the bytes at `pc`, since
a fault is one too (R119, R120, R241; the model's reading, log 7). No HALTED state has a step (R116; the
spec's decision D26, log 10), and the model answers its fault `halted` there (log 7). -/
def Obligations.StepIsDefinedExactlyInRunning : Prop :=
  (∀ (c : Config) (rr fr : ResetMode),
    (State.resetWith c rr fr).run = .running ∧ (State.resetWith c rr fr).pc = 0) ∧
  (∀ s : State, s.run = .running → ∃ t, step s = .next t) ∧
  (∀ (s : State) (r : HaltRecord), s.run = .halted r → step s = .fault (.halted r))

/-- Every state of every run from a launch meets the invariant and keeps the launch's parameters (R47, R95,
R281); holding the parameters in `config` is the model's choice (log 6). -/
def Obligations.LaunchedRunsMeetInvariant : Prop :=
  ∀ (c : Config) (rr fr : ResetMode) (memInit : Vector Byte 256) (image : List Byte) (s t : State),
    c.opcode.wf = true → launch c rr fr memInit image = some s → Reaches s t → t.Inv ∧ t.config = c

/-- A run starts RUNNING, HALTED is terminal, and nothing follows it: from a halted state only that state is
reached, with its record (R44; the spec's decision D26, log 10; the model's answer there is log 7). Such a
run has ended, well with HALT_OK and in a fault with any other record, never both (R287). -/
def Obligations.HaltedRunsAreOver : Prop :=
  (∀ (c : Config) (rr fr : ResetMode), (State.resetWith c rr fr).run = .running) ∧
  (∀ (s t : State) (r : HaltRecord), s.run = .halted r → Reaches s t → t = s) ∧
  (∀ s : State, (s.run = .halted .haltOk ↔ s.endedWell) ∧
    ((∃ r, s.run = .halted r ∧ r ≠ .haltOk) ↔ s.endedInFault) ∧
    (s.run = .running ↔ ¬ s.endedWell ∧ ¬ s.endedInFault) ∧ ¬ (s.endedWell ∧ s.endedInFault))

/-- A step that leaves RUNNING, by HLT or by any fault, changes nothing but the run state, and a fault's
record names the instruction's address (R119, R241, R252; the spec's decisions D12 and D14). -/
def Obligations.HaltingStepChangesOnlyTheRunState : Prop :=
  ∀ (s t : State) (r : HaltRecord), step s = .next t → t.run = .halted r →
    t = { s with run := .halted r } ∧ ∀ p, recordPc r = some p → p = s.pc

/-- HLT is the only way the CORE stops with success (R133): a running CORE's step ends in HALT_OK exactly
when the byte at `pc` is 0x01; `pc` then stays at the HLT byte (decision D14). -/
def Obligations.OnlyHltStopsWithSuccess : Prop :=
  ∀ s : State, s.run = .running →
    ((∃ t, step s = .next t ∧ t.run = .halted .haltOk) ↔
      s.pc.toNat ≤ 255 ∧ Memory.get s.mem s.pc.toNat = 0x01) ∧
    ∀ t, step s = .next t → t.run = .halted .haltOk → t.pc = s.pc

/-- R40: a step that changes FL executed a CMP, and after a CMP that completes exactly one of E, G, L is 1.
No other instruction writes any flag, and no flag but these exists. -/
def Obligations.OnlyCmpWritesFlags : Prop :=
  ∀ s t : State, step s = .next t →
    (t.fl ≠ s.fl → ∃ a b rest, s.fetch = .instr (.cmp a b) rest) ∧
    (∀ a b rest, s.fetch = .instr (.cmp a b) rest → t.run = .running →
      ∃ f, t.fl = .written f ∧
        ((flagE f = true ∧ flagG f = false ∧ flagL f = false) ∨
         (flagE f = false ∧ flagG f = true ∧ flagL f = false) ∨
         (flagE f = false ∧ flagG f = false ∧ flagL f = true)))

/-- `out` is empty after reset, PRN appends the byte it names and nothing else, no other instruction writes
it, and the CORE never reads it: what a step does and appends is the same whatever `out` holds (R43; the
channel itself is the spec's decision D20). -/
def Obligations.OnlyPrnWritesOutputAndNothingReadsIt : Prop :=
  (∀ (c : Config) (rr fr : ResetMode), (State.resetWith c rr fr).out = []) ∧
  ∀ s t : State, step s = .next t →
    (t.out ≠ s.out → ∃ a rest, s.fetch = .instr (.prn a) rest) ∧
    (∀ a rest, s.fetch = .instr (.prn a) rest → t.run = .running →
      ∃ v, s.cell a = .written v ∧ t.out = s.out ++ [v]) ∧
    (∀ o : List Byte, ∃ d, t.out = s.out ++ d ∧
      step { s with out := o } = .next { t with out := o ++ d })

/-- R41: JEQ and JNE read E, and no instruction reads G or L: two written flag registers that agree on E
give the same next state but for FL itself; every other instruction ignores FL altogether. -/
def Obligations.OnlyEqualIsRead : Prop :=
  (∀ (i : Instr) (s t : State) (f g : Flags), flagE f = flagE g →
    exec i { s with fl := .written f } = .next t →
      ∃ u, exec i { s with fl := .written g } = .next u ∧ t = { u with fl := t.fl }) ∧
  (∀ (i : Instr) (s t : State) (c : RegCell Flags), (∀ a, i ≠ .jeq a ∧ i ≠ .jne a) →
    exec i s = .next t → ∃ u, exec i { s with fl := c } = .next u ∧ t = { u with fl := t.fl }) ∧
  (∀ (s : State) (a : Reg) (v : Byte) (f : Flags), s.cell a = .written v →
    exec (.jeq a) { s with fl := .written f } =
      .next { s with fl := .written f, pc := if flagE f then v.setWidth 9 else s.pc + 2 } ∧
    exec (.jne a) { s with fl := .written f } =
      .next { s with fl := .written f, pc := if flagE f then s.pc + 2 else v.setWidth 9 })

/-- A register 0..6 or FL that is written stays written (R33, R42: only reset makes one unwritten). -/
def Obligations.WrittenCellsStayWritten : Prop :=
  ∀ s t : State, step s = .next t →
    (∀ r, s.cell r ≠ .unwritten → t.cell r ≠ .unwritten) ∧ (s.fl ≠ .unwritten → t.fl ≠ .unwritten)

/-- No step writes the parameters (R45: fixed at construction, no instruction reads or writes them;
holding them in State is the model's choice, log 6). -/
def Obligations.ParametersAreNeverWritten : Prop :=
  ∀ s t : State, step s = .next t → t.config = s.config

/-- R248: only ADD, SUB, MUL and CMP use the ALU, each with its own selector, so no step ends in
UNSUPPORTED_OPERATION. -/
def Obligations.UnsupportedOperationIsUnreachable : Prop :=
  ∀ (s t : State) (sel : AluSel), step s = .next t → t.run ≠ .halted (.unsupportedOperation sel)

/-! ## Encoding, decoding and the step -/

/-- Decode after encode, for every instruction with every operand, under every OPCODE in which its opcode
byte is its own; under a well-formed OPCODE (R95) that is every instruction. -/
def Obligations.DecodeAfterEncode : Prop :=
  (∀ (o : OpcodeMap) (i : Instr) (rest : List Byte), i.wf o = true →
    decode o (encode o i ++ rest) = .instr i rest) ∧
  (∀ (o : OpcodeMap) (i : Instr), o.wf = true → i.wf o = true)

/-- Encode after decode: a decoded instruction's bytes are exactly the bytes it was read from, so no two
byte strings mean the same instruction and no bit is ignored (R90, R92, R100). -/
def Obligations.EncodeAfterDecode : Prop :=
  ∀ (o : OpcodeMap) (bs : List Byte) (i : Instr) (rest : List Byte), decode o bs = .instr i rest →
    encode o i ++ rest = bs

/-- R98: the width of each instruction. -/
def Obligations.WidthOfEveryInstruction : Prop :=
  ∀ (o : OpcodeMap) (i : Instr), (encode o i).length =
    match i with
    | .hlt | .ret => 1
    | .prn _ | .push _ | .pop _ | .call _ | .jeq _ | .jmp _ | .jne _ => 2
    | .ldi _ _ | .add _ _ | .sub _ _ | .mul _ _ | .cmp _ _ => 3

/-- Words written out from R94 and (recommended bytes, log 4) R96, bit by bit as the spec's table has them. -/
def Obligations.WordsWrittenOutDecode : Prop :=
  decode .recommended [0b10000010#8, 0b00000000#8, 0b00001000#8] = .instr (.ldi 0 8) [] ∧
  decode .recommended [0b01000111#8, 0b00000000#8] = .instr (.prn 0) [] ∧
  decode .recommended [0b00000001#8] = .instr .hlt [] ∧
  decode .recommended [0b10100000#8, 0b00000010#8, 0b00000011#8] = .instr (.add 2 3) [] ∧
  decode .recommended [0b01000101#8, 0b00000111#8] = .instr (.push 7) [] ∧
  decode .recommended [0b00010001#8] = .instr .ret [] ∧
  decode .recommended [0b10100111#8, 0b00000001#8, 0b00000000#8] = .instr (.cmp 1 0) []

/-- The legal opcode bytes under the recommended OPCODE (R99 under R96; the eleven bytes are presumed,
log 4). -/
def Obligations.LegalOpcodeBytes : Prop :=
  ∀ b : Byte, (OpcodeMap.recommended.dispatch b).isSome = true ↔
    b ∈ ([0x01, 0x11, 0x45, 0x46, 0x47, 0x50, 0x54, 0x55, 0x56, 0x82, 0xA0, 0xA1, 0xA2, 0xA7] : List Byte)

/-- A step runs the decoded instruction (R118, R120); `exec` moves `pc` itself, the step adds nothing. -/
def Obligations.StepRunsTheDecodedInstruction : Prop :=
  ∀ (s : State) (i : Instr) (rest : List Byte), s.run = .running → s.fetch = .instr i rest →
    step s = exec i s

/-- When memory holds an instruction's encoding at `pc`, wholly inside memory, a step is its execution. -/
def Obligations.EncodedInstructionAtPcIsExecuted : Prop :=
  ∀ (s : State) (i : Instr), s.run = .running → i.wf s.config.opcode = true →
    s.pc.toNat + i.width ≤ 256 → BytesAt s.mem s.pc.toNat (encode s.config.opcode i) →
      step s = exec i s

/-- A fetch depends on exactly the bytes the instruction's width covers (R100, R113; the spec's decision
D11): any memory with the same bytes there gives the same instruction. -/
def Obligations.FetchReadsExactlyTheInstruction : Prop :=
  ∀ (s : State) (m : Memory) (i : Instr) (rest : List Byte), s.fetch = .instr i rest →
    (∀ k, k < i.width → Memory.get m (s.pc.toNat + k) = Memory.get s.mem (s.pc.toNat + k)) →
      ∃ rest', ({ s with mem := m } : State).fetch = .instr i rest'

/-- A byte at `pc` that is no opcode halts the CORE with INVALID_INSTRUCTION of it, whatever follows it, and
nothing but the run state changes; nothing else raises INVALID_INSTRUCTION (R111, R241, R243). That `pc` and
`out` too are unchanged is the spec's decision D12. -/
def Obligations.IllegalOpcodeHalts : Prop :=
  (∀ s : State, s.run = .running → s.pc.toNat ≤ 255 →
    (∀ m, s.config.opcode.byteOf m ≠ Memory.get s.mem s.pc.toNat) →
      step s = .next { s with run := .halted (.invalidInstruction (Memory.get s.mem s.pc.toNat) s.pc) }) ∧
  (∀ (s t : State) (op : Byte) (p : Pc), step s = .next t → t.run = .halted (.invalidInstruction op p) →
    p = s.pc ∧ s.pc.toNat ≤ 255 ∧ op = Memory.get s.mem s.pc.toNat ∧ ∀ m, s.config.opcode.byteOf m ≠ op)

/-- A fetch past 255 and the first operand byte past 255 raise OUT_OF_RANGE of that address before any
operand is checked (R117, R119; the spec's decisions D6, D7, D13). -/
def Obligations.BytesPastTheTopFault : Prop :=
  ∀ s : State, s.run = .running →
    (255 < s.pc.toNat → step s = raise (.outOfRange s.pc.toNat s.pc) s) ∧
    (s.pc.toNat ≤ 255 → ∀ m, s.config.opcode.dispatch (Memory.get s.mem s.pc.toNat) = some m →
      ∀ k, 1 ≤ k → k < m.format.width → s.pc.toNat + k = 256 →
        step s = raise (.outOfRange 256 s.pc) s)

/-- A register operand byte 8..255 raises INVALID_REGISTER, `a` before `b`, before anything is read or
written; LDI's immediate never does (R92, R245; the spec's decisions D10, D13). -/
def Obligations.RegisterBytesAboveSevenFault : Prop :=
  ∀ (s : State) (m : Mnemonic), s.run = .running → s.pc.toNat + m.format.width ≤ 256 →
    s.config.opcode.dispatch (Memory.get s.mem s.pc.toNat) = some m →
    let a := Memory.get s.mem (s.pc.toNat + 1)
    let b := Memory.get s.mem (s.pc.toNat + 2)
    (m.format ≠ .N → 7 < a.toNat → step s = raise (.invalidRegister a s.pc) s) ∧
    (m.format = .RR → a.toNat ≤ 7 → 7 < b.toNat → step s = raise (.invalidRegister b s.pc) s) ∧
    ((m.format = .N ∨ (m.format ≠ .N ∧ a.toNat ≤ 7 ∧ (m.format = .RR → b.toNat ≤ 7))) →
      ∃ i rest, s.fetch = .instr i rest ∧ i.mnemonic = m)

/-- OUT_OF_RANGE is raised only in the cases of R244's table (the spec's decisions D6 to D9). -/
def Obligations.OutOfRangeOnlyInTheListedCases : Prop :=
  ∀ (s t : State) (v : Int) (p : Pc), s.pc.toNat ≤ 256 → step s = .next t → t.run = .halted (.outOfRange v p) →
    p = s.pc ∧
    ((s.pc.toNat = 256 ∧ v = 256) ∨
     (v = 256 ∧ ∃ m k, s.config.opcode.dispatch (Memory.get s.mem s.pc.toNat) = some m ∧
        1 ≤ k ∧ k < m.format.width ∧ s.pc.toNat + k = 256) ∨
     (v = -1 ∧ s.sp = 0 ∧ ∃ a rest, s.fetch = .instr (.push a) rest ∨ s.fetch = .instr (.call a) rest) ∨
     (v = 256 ∧ ∃ a rest, s.fetch = .instr (.pop a) rest ∧ popNewSp a s = 256) ∨
     (v = 256 ∧ s.sp = 255 ∧ ∃ rest, s.fetch = .instr .ret rest) ∨
     (v = 256 ∧ s.pc.toNat = 254 ∧ ∃ a rest, s.fetch = .instr (.call a) rest))

/-- The next `pc` of every instruction that does not fault: R37's table (HLT's row is decision D14, CALL R7's
is D15). -/
def Obligations.NextPcOfEveryInstruction : Prop :=
  ∀ (i : Instr) (s t : State), s.pc.toNat + i.width ≤ 256 → s.run = .running → exec i s = .next t →
    (t.run = .running ∨ i = .hlt) →
    match i with
    | .ldi _ _ | .add _ _ | .sub _ _ | .mul _ _ | .cmp _ _ => t.pc.toNat = s.pc.toNat + 3
    | .prn _ | .push _ | .pop _ => t.pc.toNat = s.pc.toNat + 2
    | .hlt => t.pc = s.pc
    | .call a => ∃ v, t.cell a = .written v ∧ t.pc.toNat = v.toNat
    | .ret => t.pc.toNat = (Memory.get s.mem s.sp.toNat).toNat
    | .jmp a => ∃ v, s.cell a = .written v ∧ t.pc.toNat = v.toNat
    | .jeq a => ∃ v f, s.cell a = .written v ∧ s.fl = .written f ∧
        t.pc.toNat = if flagE f then v.toNat else s.pc.toNat + 2
    | .jne a => ∃ v f, s.cell a = .written v ∧ s.fl = .written f ∧
        t.pc.toNat = if flagE f then s.pc.toNat + 2 else v.toNat

/-! ## Data move, output and halt -/

/-- LDI completes in every state (R130): the register named holds the immediate, SP when it is register 7;
nothing else changes but `pc`. -/
def Obligations.LdiLoadsTheImmediate : Prop :=
  ∀ (s : State) (a : Reg) (imm : Byte), s.pc.toNat + 3 ≤ 256 →
    ∃ t, exec (.ldi a imm) s = .next t ∧ t.cell a = .written imm ∧ (a = Reg.sp → t.sp = imm) ∧
      RegsKept s t [a] ∧ MemKept s t [] ∧ t.fl = s.fl ∧ t.out = s.out ∧ t.run = s.run ∧
      t.config = s.config ∧ t.pc.toNat = s.pc.toNat + 3

/-- PRN of a written register completes (R131): `out` gains its value, SP's for register 7; nothing else
changes but `pc`. -/
def Obligations.PrnEmitsTheRegister : Prop :=
  ∀ (s : State) (a : Reg) (v : Byte), s.pc.toNat + 2 ≤ 256 → s.cell a = .written v →
    ∃ t, exec (.prn a) s = .next t ∧ t.out = s.out ++ [v] ∧ (a = Reg.sp → v = s.sp) ∧
      RegsKept s t [] ∧ MemKept s t [] ∧ t.fl = s.fl ∧ t.run = s.run ∧ t.config = s.config ∧
      t.pc.toNat = s.pc.toNat + 2

/-- HLT completes in every state (R133): the run state is HALTED(HALT_OK); `pc` (decision D14), registers,
FL, memory and `out` are unchanged. -/
def Obligations.HltHalts : Prop :=
  ∀ s : State, ∃ t, exec .hlt s = .next t ∧ t.run = .halted .haltOk ∧ t.pc = s.pc ∧
    RegsKept s t [] ∧ MemKept s t [] ∧ t.fl = s.fl ∧ t.out = s.out ∧ t.config = s.config

/-! ## ALU and arithmetic -/

/-- R150: the ALU on every selector and every pair of values; using it with another selector raises
UNSUPPORTED_OPERATION of it and writes nothing. -/
def Obligations.AluComputesExactly : Prop :=
  ∀ u v : Byte,
    alu .add u v = some ((u.toNat : Int) + v.toNat) ∧ alu .sub u v = some ((u.toNat : Int) - v.toNat) ∧
    alu .mul u v = some ((u.toNat : Int) * v.toNat) ∧
    (u.toNat = v.toNat → alu .cmp u v = some 0b001) ∧ (u.toNat > v.toNat → alu .cmp u v = some 0b010) ∧
    (u.toNat < v.toNat → alu .cmp u v = some 0b100) ∧
    ∀ (id : Byte) (s : State) (k : Int → Result),
      withAlu (.other id) u v s k = .next { s with run := .halted (.unsupportedOperation (.other id)) }

/-- ADD completes (R151, R154) under `wrap`, and under `fault` when the sum is 0..255: register `a` holds the
sum modulo 256; nothing else changes but `pc`. -/
def Obligations.AddStoresTheReducedSum : Prop :=
  ∀ (s : State) (a b : Reg) (u v : Byte), s.pc.toNat + 3 ≤ 256 → s.cell a = .written u → s.cell b = .written v →
    (s.config.arith = .wrap ∨ u.toNat + v.toNat ≤ 255) →
    ∃ t w, exec (.add a b) s = .next t ∧ t.cell a = .written w ∧ w.toNat = (u.toNat + v.toNat) % 256 ∧
      RegsKept s t [a] ∧ MemKept s t [] ∧ t.fl = s.fl ∧ t.out = s.out ∧ t.run = s.run ∧
      t.config = s.config ∧ t.pc.toNat = s.pc.toNat + 3

/-- SUB completes (R151, R155) under `wrap`, and under `fault` when the difference is not negative. -/
def Obligations.SubStoresTheReducedDifference : Prop :=
  ∀ (s : State) (a b : Reg) (u v : Byte), s.pc.toNat + 3 ≤ 256 → s.cell a = .written u → s.cell b = .written v →
    (s.config.arith = .wrap ∨ v.toNat ≤ u.toNat) →
    ∃ t w, exec (.sub a b) s = .next t ∧ t.cell a = .written w ∧
      (w.toNat : Int) = ((u.toNat : Int) - v.toNat) % 256 ∧
      RegsKept s t [a] ∧ MemKept s t [] ∧ t.fl = s.fl ∧ t.out = s.out ∧ t.run = s.run ∧
      t.config = s.config ∧ t.pc.toNat = s.pc.toNat + 3

/-- MUL completes (R151, R156) under `wrap`, and under `fault` when the product is at most 255: register `a`
holds the low 8 bits of the 16-bit product. -/
def Obligations.MulStoresTheReducedProduct : Prop :=
  ∀ (s : State) (a b : Reg) (u v : Byte), s.pc.toNat + 3 ≤ 256 → s.cell a = .written u → s.cell b = .written v →
    (s.config.arith = .wrap ∨ u.toNat * v.toNat ≤ 255) →
    ∃ t w, exec (.mul a b) s = .next t ∧ t.cell a = .written w ∧ w.toNat = u.toNat * v.toNat % 256 ∧
      RegsKept s t [a] ∧ MemKept s t [] ∧ t.fl = s.fl ∧ t.out = s.out ∧ t.run = s.run ∧
      t.config = s.config ∧ t.pc.toNat = s.pc.toNat + 3

/-- ADD, SUB and MUL raise ARITH_RANGE of the exact result under `fault` when it is outside 0..255, and nothing
raises it otherwise; never under `wrap` (R151, R247; the parameter is the spec's decision D2). -/
def Obligations.ArithRangeExactlyUnderFault : Prop :=
  (∀ (s : State) (a b : Reg) (u v : Byte), s.cell a = .written u → s.cell b = .written v →
    s.config.arith = .fault →
    (255 < u.toNat + v.toNat →
      exec (.add a b) s = raise (.arithRange ((u.toNat : Int) + v.toNat) s.pc) s) ∧
    (u.toNat < v.toNat → exec (.sub a b) s = raise (.arithRange ((u.toNat : Int) - v.toNat) s.pc) s) ∧
    (255 < u.toNat * v.toNat → exec (.mul a b) s = raise (.arithRange ((u.toNat : Int) * v.toNat) s.pc) s)) ∧
  (∀ (s t : State) (r : Int) (p : Pc), step s = .next t → t.run = .halted (.arithRange r p) →
    s.config.arith = .fault ∧ (r < 0 ∨ 255 < r) ∧
    ∃ a b rest u v, s.cell a = .written u ∧ s.cell b = .written v ∧
      ((s.fetch = .instr (.add a b) rest ∧ r = (u.toNat : Int) + v.toNat) ∨
       (s.fetch = .instr (.sub a b) rest ∧ r = (u.toNat : Int) - v.toNat) ∨
       (s.fetch = .instr (.mul a b) rest ∧ r = (u.toNat : Int) * v.toNat)))

/-- R153: both operands are read before the destination is written, so `ADD Ra, Ra` doubles, `SUB Ra, Ra`
gives 0 and `MUL Ra, Ra` squares, each reduced by R151. -/
def Obligations.OperandsAreReadBeforeTheWrite : Prop :=
  ∀ (s : State) (a : Reg) (u : Byte), s.cell a = .written u →
    (∃ t, exec (.sub a a) s = .next t ∧ t.cell a = .written 0) ∧
    (s.config.arith = .wrap ∨ 2 * u.toNat ≤ 255 →
      ∃ t, exec (.add a a) s = .next t ∧ t.cell a = .written (BitVec.ofNat 8 (2 * u.toNat))) ∧
    (s.config.arith = .wrap ∨ u.toNat ^ 2 ≤ 255 →
      ∃ t, exec (.mul a a) s = .next t ∧ t.cell a = .written (BitVec.ofNat 8 (u.toNat ^ 2)))

/-! ## Compare and branch -/

/-- CMP of written registers completes (R210): E when the values are equal, G when the first is greater, L
when it is less, as unsigned numbers, the other two bits 0; `CMP r,r` sets E. Nothing else changes but
`pc`. -/
def Obligations.CmpSetsTheFlagOfTheOrder : Prop :=
  ∀ (s : State) (a b : Reg) (u v : Byte), s.pc.toNat + 3 ≤ 256 → s.cell a = .written u → s.cell b = .written v →
    ∃ t f, exec (.cmp a b) s = .next t ∧ t.fl = .written f ∧
      (flagE f = decide (u.toNat = v.toNat)) ∧ (flagG f = decide (v.toNat < u.toNat)) ∧
      (flagL f = decide (u.toNat < v.toNat)) ∧ (a = b → f = 0b001#3) ∧
      RegsKept s t [] ∧ MemKept s t [] ∧ t.out = s.out ∧ t.run = s.run ∧ t.config = s.config ∧
      t.pc.toNat = s.pc.toNat + 3

/-- JMP of a written register completes (R213): `pc` is its value; nothing else changes. -/
def Obligations.JmpGoesToTheRegister : Prop :=
  ∀ (s : State) (a : Reg) (v : Byte), s.cell a = .written v →
    ∃ t, exec (.jmp a) s = .next t ∧ t.pc.toNat = v.toNat ∧ t = { s with pc := t.pc }

/-- JEQ of a written register with FL written completes (R212): to exactly the register's value when E is
set, else `pc + 2`; nothing else changes. -/
def Obligations.JeqBranchesOnEqual : Prop :=
  ∀ (s : State) (a : Reg) (v : Byte) (f : Flags), s.pc.toNat + 2 ≤ 256 → s.cell a = .written v → s.fl = .written f →
    ∃ t, exec (.jeq a) s = .next t ∧ t = { s with pc := t.pc } ∧
      (flagE f = true → t.pc.toNat = v.toNat) ∧ (flagE f = false → t.pc.toNat = s.pc.toNat + 2)

/-- JNE of a written register with FL written completes (R214): to exactly the register's value when E is
clear, else `pc + 2`; nothing else changes. -/
def Obligations.JneBranchesOnNotEqual : Prop :=
  ∀ (s : State) (a : Reg) (v : Byte) (f : Flags), s.pc.toNat + 2 ≤ 256 → s.cell a = .written v → s.fl = .written f →
    ∃ t, exec (.jne a) s = .next t ∧ t = { s with pc := t.pc } ∧
      (flagE f = false → t.pc.toNat = v.toNat) ∧ (flagE f = true → t.pc.toNat = s.pc.toNat + 2)

/-! ## Stack and subroutine -/

/-- PUSH of a written register with SP not 0 completes (R170, R173): SP is one less, the byte there is the
register's value, for register 7 the decremented SP (decision D15); nothing else changes but `pc`. -/
def Obligations.PushStoresBelowSp : Prop :=
  ∀ (s : State) (a : Reg) (v : Byte), s.pc.toNat + 2 ≤ 256 → s.mem.wf = true → s.cell a = .written v →
    1 ≤ s.sp.toNat →
    ∃ t, exec (.push a) s = .next t ∧ t.sp.toNat = s.sp.toNat - 1 ∧
      (a ≠ Reg.sp → Memory.get t.mem (s.sp.toNat - 1) = v) ∧
      (a = Reg.sp → (Memory.get t.mem (s.sp.toNat - 1)).toNat = s.sp.toNat - 1) ∧
      RegsKept s t [Reg.sp] ∧ MemKept s t [s.sp.toNat - 1] ∧ t.fl = s.fl ∧ t.out = s.out ∧
      t.run = s.run ∧ t.config = s.config ∧ t.pc.toNat = s.pc.toNat + 2

/-- POP whose new SP is at most 255 completes (R172, R174): the register gets the byte at SP, whatever it
is, and SP is one more; for register 7 the new SP is that byte plus 1 (decision D15). -/
def Obligations.PopLoadsFromSp : Prop :=
  (∀ (s : State) (a : Reg), s.pc.toNat + 2 ≤ 256 → a ≠ Reg.sp → s.sp.toNat ≤ 254 →
    ∃ t, exec (.pop a) s = .next t ∧ t.cell a = .written (Memory.get s.mem s.sp.toNat) ∧
      t.sp.toNat = s.sp.toNat + 1 ∧ RegsKept s t [a, Reg.sp] ∧ MemKept s t [] ∧ t.fl = s.fl ∧
      t.out = s.out ∧ t.run = s.run ∧ t.config = s.config ∧ t.pc.toNat = s.pc.toNat + 2) ∧
  (∀ s : State, s.pc.toNat + 2 ≤ 256 → (Memory.get s.mem s.sp.toNat).toNat ≤ 254 →
    ∃ t, exec (.pop Reg.sp) s = .next t ∧ t.sp.toNat = (Memory.get s.mem s.sp.toNat).toNat + 1 ∧
      RegsKept s t [Reg.sp] ∧ MemKept s t [] ∧ t.fl = s.fl ∧
      t.out = s.out ∧ t.run = s.run ∧ t.config = s.config ∧ t.pc.toNat = s.pc.toNat + 2)

/-- CALL of a written register at pc up to 253 with SP not 0 completes (R190): SP is one less, the byte there
is `pc + 2`, and `pc` is the register's value, for register 7 the decremented SP (decision D15). -/
def Obligations.CallPushesTheReturnAddress : Prop :=
  ∀ (s : State) (a : Reg) (v : Byte), s.pc.toNat ≤ 253 → s.mem.wf = true → s.cell a = .written v →
    1 ≤ s.sp.toNat →
    ∃ t, exec (.call a) s = .next t ∧ t.sp.toNat = s.sp.toNat - 1 ∧
      (Memory.get t.mem (s.sp.toNat - 1)).toNat = s.pc.toNat + 2 ∧
      (a ≠ Reg.sp → t.pc.toNat = v.toNat) ∧ (a = Reg.sp → t.pc.toNat = s.sp.toNat - 1) ∧
      RegsKept s t [Reg.sp] ∧ MemKept s t [s.sp.toNat - 1] ∧ t.fl = s.fl ∧ t.out = s.out ∧
      t.run = s.run ∧ t.config = s.config

/-- RET with SP up to 254 completes (R191), matched or not: `pc` is the byte at SP, whatever it is, and SP is
one more. -/
def Obligations.RetPopsThePc : Prop :=
  ∀ s : State, s.sp.toNat ≤ 254 →
    ∃ t, exec .ret s = .next t ∧ t.pc.toNat = (Memory.get s.mem s.sp.toNat).toNat ∧
      t.sp.toNat = s.sp.toNat + 1 ∧ RegsKept s t [Reg.sp] ∧ MemKept s t [] ∧ t.fl = s.fl ∧
      t.out = s.out ∧ t.run = s.run ∧ t.config = s.config

/-- R175: for `a`, `b` other than 7, `PUSH Ra` then `POP Rb` with no fault gives `b` what `a` held, leaves SP
as it was, and the byte at the old `SP - 1` keeps the pushed value. -/
def Obligations.PushThenPopRoundTrips : Prop :=
  ∀ (s t u : State) (a b : Reg), s.mem.wf = true → s.run = .running → a ≠ Reg.sp → b ≠ Reg.sp →
    exec (.push a) s = .next t → t.run = .running → exec (.pop b) t = .next u → u.run = .running →
    ∃ v, s.cell a = .written v ∧ u.cell b = .written v ∧ u.sp = s.sp ∧
      Memory.get u.mem (s.sp.toNat - 1) = v

/-- R192: a RET executed with SP as the CALL left it and the return-address byte not overwritten resumes at
the CALL's `pc + 2` with SP as before the CALL. -/
def Obligations.CallThenRetResumes : Prop :=
  ∀ (s t u w : State) (a : Reg), s.mem.wf = true → s.run = .running →
    exec (.call a) s = .next t → t.run = .running →
    u.sp = t.sp → Memory.get u.mem t.sp.toNat = Memory.get t.mem t.sp.toNat → u.run = .running →
    exec .ret u = .next w → w.run = .running ∧ w.pc.toNat = s.pc.toNat + 2 ∧ w.sp = s.sp

/-- SP or a return address leaving 0..255 raises OUT_OF_RANGE of it before anything is written, after the
register read; CALL checks its return address first (R171, R173, R174, R190, R191; the spec's decisions D8,
D9, D13). The range of POP R7 is that of the byte it pops (decision D15). -/
def Obligations.StackRangeFaults : Prop :=
  ∀ (s : State) (a : Reg),
    (∀ v, s.cell a = .written v → s.sp = 0 → exec (.push a) s = raise (.outOfRange (-1) s.pc) s) ∧
    (∀ v, s.cell a = .written v → s.pc.toNat = 254 → exec (.call a) s = raise (.outOfRange 256 s.pc) s) ∧
    (∀ v, s.cell a = .written v → s.pc.toNat ≤ 253 → s.sp = 0 →
      exec (.call a) s = raise (.outOfRange (-1) s.pc) s) ∧
    (a ≠ Reg.sp → s.sp = 255 → exec (.pop a) s = raise (.outOfRange 256 s.pc) s) ∧
    (Memory.get s.mem s.sp.toNat = 255 → exec (.pop Reg.sp) s = raise (.outOfRange 256 s.pc) s) ∧
    (s.sp = 255 → exec .ret s = raise (.outOfRange 256 s.pc) s)

/-! ## Unwritten cells -/

/-- A read of an unwritten register or of unwritten FL raises UNWRITTEN_READ of it, in the order of the
instruction's reads and before its own checks; LDI, HLT, POP and RET never raise it (R33, R42, R246; the
spec's decisions D3, D4, D13, D16). -/
def Obligations.UnwrittenReadsFault : Prop :=
  (∀ (s : State) (a : Reg), s.cell a = .unwritten →
    (∀ i ∈ [Instr.prn a, .push a, .call a, .jeq a, .jmp a, .jne a],
      exec i s = raise (.unwrittenRead (.reg a) s.pc) s) ∧
    (∀ b, ∀ i ∈ [Instr.add a b, .sub a b, .mul a b, .cmp a b],
      exec i s = raise (.unwrittenRead (.reg a) s.pc) s) ∧
    (∀ b v, s.cell b = .written v → ∀ i ∈ [Instr.add b a, .sub b a, .mul b a, .cmp b a],
      exec i s = raise (.unwrittenRead (.reg a) s.pc) s)) ∧
  (∀ (s : State) (a : Reg) (v : Byte), s.cell a = .written v → s.fl = .unwritten →
    ∀ i ∈ [Instr.jeq a, .jne a], exec i s = raise (.unwrittenRead .flags s.pc) s) ∧
  (∀ (s t : State) (a : Reg) (imm : Byte) (l : Location) (p : Pc), s.run = .running →
    ∀ i ∈ [Instr.ldi a imm, .hlt, .pop a, .ret], exec i s = .next t → t.run ≠ .halted (.unwrittenRead l p))

/-! ## Memory -/

/-- Only PUSH and CALL write memory, and only at `SP - 1` (R64): a byte that a step changes is that one. -/
def Obligations.MemoryIsWrittenOnlyByPushAndCall : Prop :=
  ∀ (s t : State) (a : Nat), step s = .next t → Memory.get t.mem a ≠ Memory.get s.mem a →
    1 ≤ s.sp.toNat ∧ a = s.sp.toNat - 1 ∧
    ∃ r rest, s.fetch = .instr (.push r) rest ∨ s.fetch = .instr (.call r) rest

/-- Only POP and RET read memory as data, and only the byte at SP (R64): with any other memory, equal there
for POP and RET, the instruction does the same to everything but memory. -/
def Obligations.DataIsReadOnlyByPopAndRet : Prop :=
  ∀ (i : Instr) (s t : State) (m : Memory),
    ((∃ a, i = .pop a) ∨ i = .ret → Memory.get m s.sp.toNat = Memory.get s.mem s.sp.toNat) →
    exec i s = .next t → ∃ u, exec i { s with mem := m } = .next u ∧ { u with mem := t.mem } = t

/-- A byte that PUSH or CALL stores is what every later fetch of that address reads, as opcode or as operand
byte, until a PUSH or CALL stores there again; the instruction's own bytes are no exception, and it executes
with the bytes fetched before it wrote (R75). The byte PUSH R7 stores, the decremented SP, is decision D15. -/
def Obligations.FetchSeesEveryEarlierStore : Prop :=
  ∀ (s t u : State) (a : Reg) (rest : List Byte), s.mem.wf = true → step s = .next t →
    t.run = .running → ReachesWithoutStore t.sp.toNat t u →
    (s.fetch = .instr (.push a) rest → exec (.push a) s = .next t ∧
      ∃ v, s.cell a = .written v ∧ FetchReads u t.sp.toNat (if a = Reg.sp then t.sp else v)) ∧
    (s.fetch = .instr (.call a) rest → exec (.call a) s = .next t ∧
      FetchReads u t.sp.toNat (BitVec.ofNat 8 (s.pc.toNat + 2)))

/-! ## Frames -/

/-- LDI, ADD, SUB and MUL change no register but their destination, no flag, no memory byte, no output, and
leave RUNNING only by a fault (R32, R34, R40). -/
def Obligations.FrameOfRegisterWriters : Prop :=
  ∀ (s t : State) (a b : Reg) (imm : Byte), ∀ i ∈ [Instr.ldi a imm, .add a b, .sub a b, .mul a b],
    exec i s = .next t →
      RegsKept s t [a] ∧ MemKept s t [] ∧ t.fl = s.fl ∧ t.out = s.out ∧ t.config = s.config ∧
      (t.run = s.run ∨ ∃ r, r ≠ .haltOk ∧ t.run = .halted r)

/-- PRN, HLT, CMP, JEQ, JMP and JNE change no register and no memory byte; only CMP changes FL, only PRN
`out` (R32, R40, R43, R64). -/
def Obligations.FrameOfReadersAndBranches : Prop :=
  ∀ (s t : State) (a b : Reg), ∀ i ∈ [Instr.prn a, .hlt, .cmp a b, .jeq a, .jmp a, .jne a],
    exec i s = .next t →
      RegsKept s t [] ∧ MemKept s t [] ∧ (i ≠ .cmp a b → t.fl = s.fl) ∧ (i ≠ .prn a → t.out = s.out) ∧
      t.config = s.config ∧ (t.run = s.run ∨ ∃ r, t.run = .halted r ∧ (r = .haltOk → i = .hlt))

/-- POP changes its destination and SP, RET changes SP; no memory byte, no flag, no output (R32, R64). -/
def Obligations.FrameOfPopAndRet : Prop :=
  ∀ (s t : State) (a : Reg),
    (exec (.pop a) s = .next t →
      RegsKept s t [a, Reg.sp] ∧ MemKept s t [] ∧ t.fl = s.fl ∧ t.out = s.out ∧ t.config = s.config ∧
      (t.run = s.run ∨ ∃ r, r ≠ .haltOk ∧ t.run = .halted r)) ∧
    (exec .ret s = .next t →
      RegsKept s t [Reg.sp] ∧ MemKept s t [] ∧ t.fl = s.fl ∧ t.out = s.out ∧ t.config = s.config ∧
      (t.run = s.run ∨ ∃ r, r ≠ .haltOk ∧ t.run = .halted r))

/-- PUSH and CALL change SP and the one byte at the address `withPushSlot` computes, `SP - 1`, and store
nothing when SP is 0; no other register, no flag, no output (R32, R64, R171). -/
def Obligations.FrameOfPushAndCall : Prop :=
  ∀ (s t : State) (a : Reg), ∀ i ∈ [Instr.push a, .call a], exec i s = .next t →
    RegsKept s t [Reg.sp] ∧ t.fl = s.fl ∧ t.out = s.out ∧ t.config = s.config ∧
    (1 ≤ s.sp.toNat → MemKept s t [s.sp.toNat - 1]) ∧ (s.sp.toNat = 0 → MemKept s t []) ∧
    (t.run = s.run ∨ ∃ r, r ≠ .haltOk ∧ t.run = .halted r)

/-! ## The host -/

/-- The host's exit status is 0 on HALT_OK and non-zero on every fault (R285, which extends the source's
cases to every fault). -/
def Obligations.ExitStatusIsZeroExactlyOnHalt : Prop :=
  ∀ r : HaltRecord, exitsZero r = true ↔ r = .haltOk
end

