-- ==== Sys2Proof/Laws/Decode.lean ====
section
/-! SUPPORT. The dispatch table, the operand decoders and the fetch. -/

namespace Sys2Proof

/-! ## Dispatch -/

@[simp] theorem Mnemonic.mem_all (m : Mnemonic) : m ∈ Mnemonic.all := by cases m <;> decide

/-- A dispatched mnemonic has the byte it was looked up by. -/
theorem OpcodeMap.byteOf_of_dispatch {o : OpcodeMap} {op : Byte} {m : Mnemonic}
    (h : o.dispatch op = some m) : o.byteOf m = op := by
  have := List.find?_some h
  simpa using this

/-- A byte is dispatched to nothing exactly when it is no mnemonic's. -/
theorem OpcodeMap.dispatch_none {o : OpcodeMap} {op : Byte} :
    o.dispatch op = none ↔ ∀ m, o.byteOf m ≠ op := by
  simp [OpcodeMap.dispatch]

/-- A byte that is one mnemonic's alone is dispatched to it. -/
theorem OpcodeMap.dispatch_byteOf {o : OpcodeMap} {m : Mnemonic}
    (h : ∀ m', o.byteOf m' = o.byteOf m → m' = m) : o.dispatch (o.byteOf m) = some m := by
  cases hd : o.dispatch (o.byteOf m) with
  | none => exact absurd rfl (OpcodeMap.dispatch_none.mp hd m)
  | some m' => rw [h m' (OpcodeMap.byteOf_of_dispatch hd)]

/-- The opcode bytes of a well-formed OPCODE are pairwise different (R95). -/
theorem OpcodeMap.byteOf_injective {o : OpcodeMap} (h : o.wf = true) {m m' : Mnemonic}
    (e : o.byteOf m' = o.byteOf m) : m' = m := by
  have hn : (Mnemonic.all.map o.byteOf).Nodup := by simpa [OpcodeMap.wf] using h
  exact List.inj_on_of_nodup_map hn (Mnemonic.mem_all m') (Mnemonic.mem_all m) e

theorem OpcodeMap.dispatch_of_wf {o : OpcodeMap} (h : o.wf = true) (m : Mnemonic) :
    o.dispatch (o.byteOf m) = some m :=
  OpcodeMap.dispatch_byteOf fun _ e => OpcodeMap.byteOf_injective h e

/-- What `Instr.wf` says: the opcode byte is the instruction's own. -/
theorem Instr.wf_iff {o : OpcodeMap} {i : Instr} :
    i.wf o = true ↔ ∀ m, o.byteOf m = o.byteOf i.mnemonic → m = i.mnemonic := by
  simp only [Instr.wf, List.all_eq_true, Mnemonic.mem_all, forall_const, Bool.or_eq_true, beq_iff_eq,
    bne_iff_ne]
  exact forall_congr' fun m => by tauto

/-! ## Register bytes -/

@[simp] theorem regOfByte_byteOfReg (r : Reg) : regOfByte (byteOfReg r) = some r := by
  revert r; decide

theorem byteOfReg_of_regOfByte {v : Byte} {r : Reg} (h : regOfByte v = some r) : byteOfReg r = v := by
  unfold regOfByte at h
  split at h
  · injection h with h
    subst h
    apply BitVec.eq_of_toNat_eq
    simp [byteOfReg]
  · cases h

theorem regOfByte_none {v : Byte} : regOfByte v = none ↔ 7 < v.toNat := by
  unfold regOfByte; split <;> simp <;> omega

theorem withRegByte_instr {v : Byte} {k : Reg → Decoded} {i : Instr} {rest : List Byte}
    (h : withRegByte v k = .instr i rest) : ∃ r, byteOfReg r = v ∧ k r = .instr i rest := by
  unfold withRegByte at h
  split at h
  · rename_i r hr; exact ⟨r, byteOfReg_of_regOfByte hr, h⟩
  · cases h

@[simp] theorem withRegByte_byteOfReg (r : Reg) (k : Reg → Decoded) : withRegByte (byteOfReg r) k = k r := by
  simp [withRegByte]

theorem withRegByte_bad {v : Byte} (h : 7 < v.toNat) (k : Reg → Decoded) :
    withRegByte v k = .rejected (.invalidRegister v) := by
  simp [withRegByte, regOfByte_none.mpr h]

/-- Decoded operands belong to the mnemonic they were decoded for. -/
theorem decodeOperands_mnemonic {bs rest : List Byte} {m : Mnemonic} {i : Instr}
    (h : decodeOperands bs m = .instr i rest) : i.mnemonic = m := by
  have hR : ∀ {mk : Reg → Instr}, (∀ r, (mk r).mnemonic = m) → decodeR mk bs = .instr i rest →
      i.mnemonic = m := by
    intro mk hmk h
    unfold decodeR at h
    split at h
    · cases h
    · obtain ⟨r, -, h⟩ := withRegByte_instr h; cases h; exact hmk r
  have hRR : ∀ {mk : Reg → Reg → Instr}, (∀ r q, (mk r q).mnemonic = m) → decodeRR mk bs = .instr i rest →
      i.mnemonic = m := by
    intro mk hmk h
    unfold decodeRR at h
    split at h
    · cases h
    · cases h
    · obtain ⟨r, -, h⟩ := withRegByte_instr h
      obtain ⟨q, -, h⟩ := withRegByte_instr h
      cases h; exact hmk r q
  have hRI : ∀ {mk : Reg → Byte → Instr}, (∀ r v, (mk r v).mnemonic = m) → decodeRI mk bs = .instr i rest →
      i.mnemonic = m := by
    intro mk hmk h
    unfold decodeRI at h
    split at h
    · cases h
    · cases h
    · obtain ⟨r, -, h⟩ := withRegByte_instr h; cases h; exact hmk r _
  cases m with
  | hlt => cases h; rfl
  | ret => cases h; rfl
  | ldi => exact hRI (fun _ _ => rfl) h
  | add => exact hRR (fun _ _ => rfl) h
  | sub => exact hRR (fun _ _ => rfl) h
  | mul => exact hRR (fun _ _ => rfl) h
  | cmp => exact hRR (fun _ _ => rfl) h
  | prn => exact hR (fun _ => rfl) h
  | push => exact hR (fun _ => rfl) h
  | pop => exact hR (fun _ => rfl) h
  | call => exact hR (fun _ => rfl) h
  | jeq => exact hR (fun _ => rfl) h
  | jmp => exact hR (fun _ => rfl) h
  | jne => exact hR (fun _ => rfl) h

/-! ## Fetch -/

namespace Machine

/-- The fetched bytes begin with what memory holds at `pc`. -/
theorem bytesFrom_prefix {m : Memory} {a n : Nat} {bs : List Byte} (hn : bs.length ≤ n)
    (ha : a + bs.length ≤ 256) (h : BytesAt m a bs) : ∃ rest, Memory.bytesFrom m n a = bs ++ rest := by
  induction bs generalizing a n with
  | nil => exact ⟨_, rfl⟩
  | cons b bs ih =>
    cases n with
    | zero => simp at hn
    | succ n =>
      have h0 : Memory.get m a = b := h 0 (by simp)
      have ht : BytesAt m (a + 1) bs := by
        intro k hk
        have := h (k + 1) (by simpa using hk)
        simpa [Nat.add_assoc, Nat.add_comm 1 k] using this
      simp only [List.length_cons] at hn ha
      obtain ⟨rest, hr⟩ := ih (n := n) (by omega) (by omega) ht
      refine ⟨rest, ?_⟩
      rw [Memory.bytesFrom, if_pos (by omega), h0, hr, List.cons_append]

/-- Each fetched byte inside memory is the byte memory holds at its address. -/
theorem getElem?_bytesFrom {m : Memory} {n a k : Nat} (hk : k < n) (ha : a + k < 256) :
    (Memory.bytesFrom m n a)[k]? = some (Memory.get m (a + k)) := by
  induction n generalizing a k with
  | zero => omega
  | succ n ih =>
    rw [Memory.bytesFrom, if_pos (by omega)]
    cases k with
    | zero => rfl
    | succ k =>
      rw [List.getElem?_cons_succ, ih (by omega) (by omega)]
      congr 2; omega

/-- A fetch reads what memory holds. -/
theorem fetchReads_get (s : State) {a : Nat} (ha : a < 256) : FetchReads s a (Memory.get s.mem a) := by
  rintro p k hk rfl
  exact getElem?_bytesFrom hk ha

/-- Past the top of memory there is nothing to fetch. -/
theorem fetch_past_top {s : State} (h : 256 ≤ s.pc.toNat) : s.fetch = .rejected .noOpcode := by
  unfold State.fetch State.fetchBytes Memory.bytesFrom
  rw [if_neg (by omega)]
  rfl

/-- Inside memory the byte at `pc` is looked up and its operands are decoded from the bytes after it. -/
theorem fetch_inside {s : State} (h : s.pc.toNat < 256) :
    s.fetch = match s.config.opcode.dispatch (Memory.get s.mem s.pc.toNat) with
      | none => .rejected (.invalidInstruction (Memory.get s.mem s.pc.toNat))
      | some m => decodeOperands (Memory.bytesFrom s.mem 2 (s.pc.toNat + 1)) m := by
  unfold State.fetch State.fetchBytes
  rw [Memory.bytesFrom, if_pos h]
  rfl

/-- Advancing `pc` by an instruction inside memory does not wrap. -/
theorem pc_add (p : Pc) (n : Nat) (h : p.toNat + n ≤ 256) : (p + BitVec.ofNat 9 n).toNat = p.toNat + n := by
  rw [BitVec.toNat_add, BitVec.toNat_ofNat]; omega

/-- A byte written to `pc` keeps its value. -/
theorem toNat_setWidth_pc (v : Byte) : (v.setWidth 9).toNat = v.toNat := by
  rw [BitVec.toNat_setWidth]; have := v.isLt; omega

/-- Every step in RUNNING is the execution of the fetched instruction, or the fault of a refused one. -/
theorem step_next {s t : State} (h : step s = .next t) :
    s.run = .running ∧
    ((∃ i rest, s.fetch = .instr i rest ∧ exec i s = .next t) ∨
     (∃ e, s.fetch = .rejected e ∧ t = { s with run := .halted (recordOf e s.pc) })) := by
  unfold step at h
  split at h
  · cases h
  · rename_i hr
    refine ⟨hr, ?_⟩
    split at h
    · rename_i i rest hf; exact .inl ⟨i, rest, hf, h⟩
    · rename_i e hf; injection h with h; exact .inr ⟨e, hf, h.symm⟩

end Machine

end Sys2Proof
end

