-- ==== Sys2Proof/Laws/Memory.lean ====
section
/-! SUPPORT. Memory: a read after a write, the canonical form, the memory of a launch. -/

namespace Sys2Proof.Machine

@[simp] theorem Memory.get_nil (a : Nat) : Memory.get [] a = Memory.unlisted := rfl

/-- Below its first address, a canonical memory lists nothing. -/
theorem Memory.get_of_lt {m : Memory} {lo a : Nat} (h : Memory.wfFrom lo m = true) (ha : a < lo) :
    Memory.get m a = Memory.unlisted := by
  induction m generalizing lo with
  | nil => rfl
  | cons c m ih =>
    obtain ⟨b, w⟩ := c
    simp only [Memory.wfFrom, Bool.and_eq_true, decide_eq_true_eq] at h
    have hab : a ≠ b := by omega
    simp only [Memory.get, hab, if_false]
    exact ih h.2 (by omega)

/-- A cell in front reads as the value it holds. -/
theorem Memory.get_cons {m : Memory} {b : Nat} {v : Byte} (h : Memory.wfFrom (b + 1) m = true) (a : Nat) :
    Memory.get (Memory.cons b v m) a = if a = b then v else Memory.get m a := by
  unfold Memory.cons
  split
  · rename_i hv
    split
    · rename_i hab
      rw [Memory.get_of_lt h (by omega), hv]
    · rfl
  · rfl

theorem Memory.wfFrom_mono {m : Memory} {lo hi : Nat} (h : Memory.wfFrom hi m = true) (hl : lo ≤ hi) :
    Memory.wfFrom lo m = true := by
  cases m with
  | nil => rfl
  | cons c m =>
    simp only [Memory.wfFrom, Bool.and_eq_true, decide_eq_true_eq] at h ⊢
    exact ⟨⟨⟨by omega, h.1.1.2⟩, h.1.2⟩, h.2⟩

theorem Memory.cons_wfFrom {m : Memory} {lo b : Nat} {v : Byte} (h : Memory.wfFrom (b + 1) m = true)
    (hb : b < 256) (hl : lo ≤ b) : Memory.wfFrom lo (Memory.cons b v m) = true := by
  unfold Memory.cons
  split
  · exact Memory.wfFrom_mono h (by omega)
  · simp [Memory.wfFrom, *]

/-- A store keeps the canonical form. -/
theorem Memory.put_wfFrom {m : Memory} {lo a : Nat} {v : Byte} (h : Memory.wfFrom lo m = true)
    (ha : a < 256) (hl : lo ≤ a) : Memory.wfFrom lo (Memory.put m a v) = true := by
  induction m generalizing lo with
  | nil => exact Memory.cons_wfFrom rfl ha hl
  | cons c m ih =>
    obtain ⟨b, w⟩ := c
    have h' := h
    simp only [Memory.wfFrom, Bool.and_eq_true, decide_eq_true_eq] at h'
    obtain ⟨⟨⟨hb, hb'⟩, hw⟩, hm⟩ := h'
    simp only [Memory.put]
    split
    · exact Memory.cons_wfFrom (by simp [Memory.wfFrom, hb', hw, hm]; omega) ha hl
    · split
      · subst a; exact Memory.cons_wfFrom hm ha hl
      · simp [Memory.wfFrom, hb, hb', hw, ih hm (by omega)]

theorem Memory.put_wf {m : Memory} {a : Nat} {v : Byte} (h : m.wf = true) (ha : a < 256) :
    (Memory.put m a v).wf = true := Memory.put_wfFrom h ha (Nat.zero_le a)

theorem Memory.get_putFrom {m : Memory} {lo a : Nat} {v : Byte} (h : Memory.wfFrom lo m = true)
    (c : Nat) : Memory.get (Memory.put m a v) c = if c = a then v else Memory.get m c := by
  induction m generalizing lo with
  | nil => exact Memory.get_cons rfl c
  | cons d m ih =>
    obtain ⟨b, w⟩ := d
    have h' := h
    simp only [Memory.wfFrom, Bool.and_eq_true, decide_eq_true_eq] at h'
    obtain ⟨⟨⟨hb, hb'⟩, hw⟩, hm⟩ := h'
    simp only [Memory.put]
    split
    · exact Memory.get_cons (by simp [Memory.wfFrom, hb', hw, hm]; omega) c
    · split
      · subst a
        rw [Memory.get_cons hm]
        simp only [Memory.get]
        split <;> simp_all
      · simp only [Memory.get, ih hm]
        split <;> split <;> simp_all

/-- A read after a write: the byte written at its address, what was there before at every other. -/
theorem Memory.get_put {m : Memory} (h : m.wf = true) (a : Nat) (v : Byte) (c : Nat) :
    Memory.get (Memory.put m a v) c = if c = a then v else Memory.get m c := Memory.get_putFrom h c

/-- A write leaves every other address alone, in any memory. -/
theorem Memory.get_put_ne {m : Memory} {a c : Nat} (v : Byte) (h : c ≠ a) :
    Memory.get (Memory.put m a v) c = Memory.get m c := by
  have hcons : ∀ m', Memory.get (Memory.cons a v m') c = Memory.get m' c := by
    intro m'
    unfold Memory.cons
    split
    · rfl
    · simp [Memory.get, h]
  induction m with
  | nil => exact hcons []
  | cons d m ih =>
    obtain ⟨b, w⟩ := d
    simp only [Memory.put]
    split
    · exact hcons _
    · split
      · subst a; rw [hcons]; simp [Memory.get, h]
      · simp only [Memory.get, ih]

theorem Memory.fill_wf {m : Memory} (h : m.wf = true) (f : Nat → Byte) {n : Nat} (hn : n ≤ 256) :
    (Memory.fill f n m).wf = true := by
  induction n with
  | zero => exact h
  | succ n ih => exact Memory.put_wf (ih (by omega)) (by omega)

/-- The first `n` addresses of a filled memory. -/
theorem Memory.get_fill {m : Memory} (h : m.wf = true) (f : Nat → Byte) {n : Nat} (hn : n ≤ 256) (a : Nat) :
    Memory.get (Memory.fill f n m) a = if a < n then f a else Memory.get m a := by
  induction n with
  | zero => simp [Memory.fill]
  | succ n ih =>
    rw [Memory.fill, Memory.get_put (Memory.fill_wf h f (by omega)), ih (by omega)]
    by_cases h1 : a = n
    · simp [h1]
    · have h2 : a < n + 1 ↔ a < n := by omega
      simp [h1, h2]

theorem Memory.putFrom_wf {m : Memory} (h : m.wf = true) (a : Nat) (bs : List Byte) :
    (Memory.putFrom m a bs).wf = true := by
  induction bs generalizing m a with
  | nil => exact h
  | cons b bs ih =>
    rw [Memory.putFrom]
    apply ih
    split
    · exact Memory.put_wf h ‹_›
    · exact h

theorem launchByte_of_lt {memInit : Vector Byte 256} {image : List Byte} {a : Nat} (h : a < image.length) :
    launchByte memInit image a = image[a] := by
  simp [launchByte, List.getElem?_eq_getElem h]

theorem launchByte_of_ge {memInit : Vector Byte 256} {image : List Byte} {a : Nat} (h : image.length ≤ a)
    (ha : a < 256) : launchByte memInit image a = memInit[a] := by
  simp [launchByte, List.getElem?_eq_none h, ha]

end Sys2Proof.Machine
end

