-- ==== Sys2Proof/Laws/State.lean ====
section
/-! SUPPORT. One lemma per field per update of the state. -/

namespace Sys2Proof.Machine

section advance
variable (s : State) (n : Nat)
@[simp] theorem State.advance_config : (s.advance n).config = s.config := rfl
@[simp] theorem State.advance_mem : (s.advance n).mem = s.mem := rfl
@[simp] theorem State.advance_gpr : (s.advance n).gpr = s.gpr := rfl
@[simp] theorem State.advance_sp : (s.advance n).sp = s.sp := rfl
@[simp] theorem State.advance_fl : (s.advance n).fl = s.fl := rfl
@[simp] theorem State.advance_run : (s.advance n).run = s.run := rfl
@[simp] theorem State.advance_out : (s.advance n).out = s.out := rfl
@[simp] theorem State.advance_pc : (s.advance n).pc = s.pc + BitVec.ofNat 9 n := rfl
end advance

section jump
variable (s : State) (t : Byte)
@[simp] theorem State.jump_config : (s.jump t).config = s.config := rfl
@[simp] theorem State.jump_mem : (s.jump t).mem = s.mem := rfl
@[simp] theorem State.jump_gpr : (s.jump t).gpr = s.gpr := rfl
@[simp] theorem State.jump_sp : (s.jump t).sp = s.sp := rfl
@[simp] theorem State.jump_fl : (s.jump t).fl = s.fl := rfl
@[simp] theorem State.jump_run : (s.jump t).run = s.run := rfl
@[simp] theorem State.jump_out : (s.jump t).out = s.out := rfl
@[simp] theorem State.jump_pc : (s.jump t).pc = t.setWidth 9 := rfl
end jump

section emit
variable (s : State) (v : Byte)
@[simp] theorem State.emit_config : (s.emit v).config = s.config := rfl
@[simp] theorem State.emit_mem : (s.emit v).mem = s.mem := rfl
@[simp] theorem State.emit_gpr : (s.emit v).gpr = s.gpr := rfl
@[simp] theorem State.emit_sp : (s.emit v).sp = s.sp := rfl
@[simp] theorem State.emit_fl : (s.emit v).fl = s.fl := rfl
@[simp] theorem State.emit_pc : (s.emit v).pc = s.pc := rfl
@[simp] theorem State.emit_run : (s.emit v).run = s.run := rfl
@[simp] theorem State.emit_out : (s.emit v).out = s.out ++ [v] := rfl
end emit

section setFlags
variable (s : State) (f : Flags)
@[simp] theorem State.setFlags_config : (s.setFlags f).config = s.config := rfl
@[simp] theorem State.setFlags_mem : (s.setFlags f).mem = s.mem := rfl
@[simp] theorem State.setFlags_gpr : (s.setFlags f).gpr = s.gpr := rfl
@[simp] theorem State.setFlags_sp : (s.setFlags f).sp = s.sp := rfl
@[simp] theorem State.setFlags_pc : (s.setFlags f).pc = s.pc := rfl
@[simp] theorem State.setFlags_run : (s.setFlags f).run = s.run := rfl
@[simp] theorem State.setFlags_out : (s.setFlags f).out = s.out := rfl
@[simp] theorem State.setFlags_fl : (s.setFlags f).fl = .written f := rfl
end setFlags

section store
variable (s : State) (a v : Byte)
@[simp] theorem State.store_config : (s.store a v).config = s.config := rfl
@[simp] theorem State.store_gpr : (s.store a v).gpr = s.gpr := rfl
@[simp] theorem State.store_sp : (s.store a v).sp = s.sp := rfl
@[simp] theorem State.store_fl : (s.store a v).fl = s.fl := rfl
@[simp] theorem State.store_pc : (s.store a v).pc = s.pc := rfl
@[simp] theorem State.store_run : (s.store a v).run = s.run := rfl
@[simp] theorem State.store_out : (s.store a v).out = s.out := rfl
@[simp] theorem State.store_mem : (s.store a v).mem = Memory.put s.mem a.toNat v := rfl
end store

section pushAt
variable (s : State) (slot v : Byte)
@[simp] theorem State.pushAt_config : (s.pushAt slot v).config = s.config := rfl
@[simp] theorem State.pushAt_gpr : (s.pushAt slot v).gpr = s.gpr := rfl
@[simp] theorem State.pushAt_sp : (s.pushAt slot v).sp = slot := rfl
@[simp] theorem State.pushAt_fl : (s.pushAt slot v).fl = s.fl := rfl
@[simp] theorem State.pushAt_pc : (s.pushAt slot v).pc = s.pc := rfl
@[simp] theorem State.pushAt_run : (s.pushAt slot v).run = s.run := rfl
@[simp] theorem State.pushAt_out : (s.pushAt slot v).out = s.out := rfl
@[simp] theorem State.pushAt_mem : (s.pushAt slot v).mem = Memory.put s.mem slot.toNat v := rfl
end pushAt

section setReg
variable (s : State) (r : Reg) (v : Byte)
@[simp] theorem State.setReg_config : (s.setReg r v).config = s.config := by unfold State.setReg; split <;> rfl
@[simp] theorem State.setReg_mem : (s.setReg r v).mem = s.mem := by unfold State.setReg; split <;> rfl
@[simp] theorem State.setReg_fl : (s.setReg r v).fl = s.fl := by unfold State.setReg; split <;> rfl
@[simp] theorem State.setReg_pc : (s.setReg r v).pc = s.pc := by unfold State.setReg; split <;> rfl
@[simp] theorem State.setReg_run : (s.setReg r v).run = s.run := by unfold State.setReg; split <;> rfl
@[simp] theorem State.setReg_out : (s.setReg r v).out = s.out := by unfold State.setReg; split <;> rfl
end setReg

end Sys2Proof.Machine
end

