-- ==== Sys2Proof/Laws/Ops.lean ====
section
/-! SUPPORT. What each shared operation can answer: one equation where its outcome is decided by a condition,
one inversion lemma ("if it answers next t, then one of these cases holds"). -/

namespace Sys2Proof.Machine

@[simp] theorem next_inj {s t : State} :
    ((.next s : Result) = .next t) ↔ s = t := ⟨fun h => by injection h, fun h => by rw [h]⟩

theorem raise_next {r : HaltRecord} {s t : State} (h : raise r s = .next t) :
    t = { s with run := .halted r } := by
  injection h with h; exact h.symm

/-! ## The range check -/

theorem withAddress_in {n : Nat} (h : n ≤ 255) (s : State) (k : Byte → Result) :
    withAddress n s k = k (BitVec.ofNat 8 n) := by
  have h1 : 0 ≤ (n : Int) ∧ (n : Int) ≤ 255 := by omega
  rw [withAddress, if_pos h1]
  congr 1

theorem withAddress_out {v : Int} (h : v < 0 ∨ 255 < v) (s : State) (k : Byte → Result) :
    withAddress v s k = raise (.outOfRange v s.pc) s := by
  rw [withAddress, if_neg (by omega)]

theorem withAddress_next {v : Int} {s t : State} {k : Byte → Result} (h : withAddress v s k = .next t) :
    (0 ≤ v ∧ v ≤ 255 ∧ k (BitVec.ofInt 8 v) = .next t) ∨
    ((v < 0 ∨ 255 < v) ∧ t = { s with run := .halted (.outOfRange v s.pc) }) := by
  unfold withAddress at h
  split at h
  · rename_i hv; exact .inl ⟨hv.1, hv.2, h⟩
  · exact .inr ⟨by omega, raise_next h⟩

/-! ## Registers -/

@[simp] theorem State.cell_sp (s : State) : s.cell Reg.sp = .written s.sp := rfl

@[simp] theorem State.cell_advance (s : State) (n : Nat) (r : Reg) : (s.advance n).cell r = s.cell r := rfl
@[simp] theorem State.cell_jump (s : State) (t : Byte) (r : Reg) : (s.jump t).cell r = s.cell r := rfl
@[simp] theorem State.cell_emit (s : State) (v : Byte) (r : Reg) : (s.emit v).cell r = s.cell r := rfl
@[simp] theorem State.cell_setFlags (s : State) (f : Flags) (r : Reg) : (s.setFlags f).cell r = s.cell r := rfl
@[simp] theorem State.cell_store (s : State) (a v : Byte) (r : Reg) : (s.store a v).cell r = s.cell r := rfl

/-- The one register write: the register named holds the value, every other what it held. -/
@[simp] theorem State.cell_setReg (s : State) (a r : Reg) (v : Byte) :
    (s.setReg a v).cell r = if r = a then .written v else s.cell r := by
  unfold State.setReg State.cell
  split <;> split <;> simp_all [Vector.getElem_set, Fin.ext_iff] <;> grind

/-- Overwriting SP changes register 7 alone. -/
@[simp] theorem State.cell_withSp (s : State) (v : Byte) (r : Reg) :
    ({ s with sp := v } : State).cell r = if r = Reg.sp then .written v else s.cell r := by
  unfold State.cell
  by_cases h : r.val < 7
  · have : r ≠ Reg.sp := by rintro rfl; simp at h
    simp [h, this]
  · have : r = Reg.sp := by apply Fin.ext; have := r.isLt; simp; omega
    simp [this]

@[simp] theorem State.cell_pushAt (s : State) (slot v : Byte) (r : Reg) :
    (s.pushAt slot v).cell r = if r = Reg.sp then .written slot else s.cell r :=
  State.cell_withSp s slot r

/-- Register 7's write is SP's. -/
theorem State.setReg_sp (s : State) (r : Reg) (v : Byte) :
    (s.setReg r v).sp = if r = Reg.sp then v else s.sp := by
  unfold State.setReg
  split
  · have : r ≠ Reg.sp := by rintro rfl; simp_all
    simp [this]
  · have : r = Reg.sp := by apply Fin.ext; have := r.isLt; simp; omega
    simp [this]

theorem withReg_written {r : Reg} {s : State} {v : Byte} (h : s.cell r = .written v) (k : Byte → Result) :
    withReg r s k = k v := by rw [withReg, h]

theorem withReg_unwritten {r : Reg} {s : State} (h : s.cell r = .unwritten) (k : Byte → Result) :
    withReg r s k = raise (.unwrittenRead (.reg r) s.pc) s := by rw [withReg, h]

theorem withReg_next {r : Reg} {s t : State} {k : Byte → Result} (h : withReg r s k = .next t) :
    (∃ v, s.cell r = .written v ∧ k v = .next t) ∨
    (s.cell r = .unwritten ∧ t = { s with run := .halted (.unwrittenRead (.reg r) s.pc) }) := by
  unfold withReg at h
  split at h
  · rename_i v hv; exact .inl ⟨v, hv, h⟩
  · rename_i hv; exact .inr ⟨hv, raise_next h⟩

theorem withRegs_written {a b : Reg} {s : State} {u v : Byte} (ha : s.cell a = .written u)
    (hb : s.cell b = .written v) (k : Byte → Byte → Result) : withRegs a b s k = k u v := by
  rw [withRegs, withReg_written ha, withReg_written hb]

theorem withRegs_next {a b : Reg} {s t : State} {k : Byte → Byte → Result} (h : withRegs a b s k = .next t) :
    (∃ u v, s.cell a = .written u ∧ s.cell b = .written v ∧ k u v = .next t) ∨
    (s.cell a = .unwritten ∧ t = { s with run := .halted (.unwrittenRead (.reg a) s.pc) }) ∨
    ((∃ u, s.cell a = .written u) ∧ s.cell b = .unwritten ∧
      t = { s with run := .halted (.unwrittenRead (.reg b) s.pc) }) := by
  rcases withReg_next h with ⟨u, hu, h⟩ | h
  · rcases withReg_next h with ⟨v, hv, h⟩ | h
    · exact .inl ⟨u, v, hu, hv, h⟩
    · exact .inr (.inr ⟨⟨u, hu⟩, h⟩)
  · exact .inr (.inl h)

/-! ## The stack -/

theorem withPushSlot_pos {s : State} (h : s.sp ≠ 0) (k : Byte → Result) :
    withPushSlot s k = k (s.sp - 1) := by
  have h0 : s.sp.toNat ≠ 0 := fun e => h (by apply BitVec.eq_of_toNat_eq; simpa using e)
  have h1 := s.sp.isLt
  have h2 : (s.sp.toNat : Int) - 1 = ((s.sp.toNat - 1 : Nat) : Int) := by omega
  rw [withPushSlot, h2, withAddress_in (by omega)]
  congr 1
  apply BitVec.eq_of_toNat_eq
  simp [BitVec.toNat_sub]
  omega

theorem withPushSlot_zero {s : State} (h : s.sp = 0) (k : Byte → Result) :
    withPushSlot s k = raise (.outOfRange (-1) s.pc) s := by
  rw [withPushSlot, h]
  exact withAddress_out (.inl (by decide)) s k

theorem withPushSlot_next {s t : State} {k : Byte → Result} (h : withPushSlot s k = .next t) :
    (s.sp ≠ 0 ∧ k (s.sp - 1) = .next t) ∨
    (s.sp = 0 ∧ t = { s with run := .halted (.outOfRange (-1) s.pc) }) := by
  by_cases h0 : s.sp = 0
  · rw [withPushSlot_zero h0] at h; exact .inr ⟨h0, raise_next h⟩
  · rw [withPushSlot_pos h0] at h; exact .inl ⟨h0, h⟩

/-! ## Flags and ALU -/

theorem withFlagE_written {s : State} {f : Flags} (h : s.fl = .written f) (k : Bool → Result) :
    withFlagE s k = k (flagE f) := by rw [withFlagE, h]

theorem withFlagE_unwritten {s : State} (h : s.fl = .unwritten) (k : Bool → Result) :
    withFlagE s k = raise (.unwrittenRead .flags s.pc) s := by rw [withFlagE, h]

theorem withFlagE_next {s t : State} {k : Bool → Result} (h : withFlagE s k = .next t) :
    (∃ f, s.fl = .written f ∧ k (flagE f) = .next t) ∨
    (s.fl = .unwritten ∧ t = { s with run := .halted (.unwrittenRead .flags s.pc) }) := by
  unfold withFlagE at h
  split at h
  · rename_i f hf; exact .inl ⟨f, hf, h⟩
  · rename_i hf; exact .inr ⟨hf, raise_next h⟩

/-- CMP's flags come out of the ALU's integer as they went in. -/
@[simp] theorem ofInt_compareFlags (u v : Byte) :
    BitVec.ofInt 3 ((compareFlags u v).toNat : Int) = compareFlags u v := by
  simp

theorem withAlu_cmp (u v : Byte) (s : State) (k : Int → Result) :
    withAlu .cmp u v s k = k (compareFlags u v).toNat := rfl

theorem withReduced_in {r : Int} (h : 0 ≤ r ∧ r ≤ 255) (s : State) (k : Byte → Result) :
    withReduced r s k = k (BitVec.ofInt 8 r) := by rw [withReduced, if_pos h]

/-- Reduction modulo 256 and the 8-bit pattern of the integer are the same byte. -/
theorem ofInt_emod_256 (r : Int) : BitVec.ofInt 8 (r % 256) = BitVec.ofInt 8 r := by
  apply BitVec.eq_of_toInt_eq
  rw [BitVec.toInt_ofInt, BitVec.toInt_ofInt]
  exact Int.emod_bmod r 256

theorem withReduced_wrap {s : State} (h : s.config.arith = .wrap) (r : Int) (k : Byte → Result) :
    withReduced r s k = k (BitVec.ofInt 8 r) := by
  unfold withReduced
  split
  · rfl
  · rw [h]; simp only [ofInt_emod_256]

theorem withReduced_fault {s : State} {r : Int} (hm : s.config.arith = .fault) (h : r < 0 ∨ 255 < r)
    (k : Byte → Result) : withReduced r s k = raise (.arithRange r s.pc) s := by
  rw [withReduced, if_neg (by omega), hm]

theorem withReduced_next {r : Int} {s t : State} {k : Byte → Result} (h : withReduced r s k = .next t) :
    ((s.config.arith = .wrap ∨ (0 ≤ r ∧ r ≤ 255)) ∧ k (BitVec.ofInt 8 r) = .next t) ∨
    (s.config.arith = .fault ∧ (r < 0 ∨ 255 < r) ∧ t = { s with run := .halted (.arithRange r s.pc) }) := by
  by_cases hr : 0 ≤ r ∧ r ≤ 255
  · rw [withReduced_in hr] at h; exact .inl ⟨.inr hr, h⟩
  · cases hm : s.config.arith with
    | wrap => rw [withReduced_wrap hm] at h; exact .inl ⟨.inl rfl, h⟩
    | fault => rw [withReduced_fault hm (by omega)] at h; exact .inr ⟨rfl, by omega, raise_next h⟩

/-- CMP's flags: exactly one bit. -/
theorem compareFlags_oneHot (u v : Byte) : flagsOneHot (compareFlags u v) = true := by
  unfold compareFlags
  split
  · decide
  · split <;> decide

end Sys2Proof.Machine
end

