-- ==== Sys2Proof/Laws/Exec.lean ====
section
/-! SUPPORT. Once and for all, what executing an instruction can answer: its effect, or one of its faults
(`exec_next`), and never nothing (`exec_total`). Later proofs cite these instead of unfolding `exec`. -/

namespace Sys2Proof.Machine

/-- The exact integer result of ADD, SUB and MUL. -/
def arithResult (sel : AluSel) (u v : Byte) : Int := (alu sel u v).getD 0

/-- Two registers are written and the reduced result goes to `a`. -/
def ArithEffect (sel : AluSel) (a b : Reg) (s t : State) : Prop :=
  ∃ u v, s.cell a = .written u ∧ s.cell b = .written v ∧
    (s.config.arith = .wrap ∨ (0 ≤ arithResult sel u v ∧ arithResult sel u v ≤ 255)) ∧
    t = (s.setReg a (BitVec.ofInt 8 (arithResult sel u v))).advance 3

/-- An instruction's own effect. -/
def Effect (i : Instr) (s t : State) : Prop :=
  match i with
  | .ldi a imm => t = (s.setReg a imm).advance 3
  | .prn a => ∃ v, s.cell a = .written v ∧ t = (s.emit v).advance 2
  | .hlt => t = { s with run := .halted .haltOk }
  | .add a b => ArithEffect .add a b s t
  | .sub a b => ArithEffect .sub a b s t
  | .mul a b => ArithEffect .mul a b s t
  | .push a => ∃ v, s.cell a = .written v ∧ s.sp ≠ 0 ∧
      t = (s.pushAt (s.sp - 1) (afterPush a (s.sp - 1) v)).advance 2
  | .pop a => popNewSp a s ≤ 255 ∧
      t = ({ s.setReg a s.top with sp := BitVec.ofInt 8 (popNewSp a s) } : State).advance 2
  | .call a => ∃ v, s.cell a = .written v ∧ s.pc.toNat + 2 ≤ 255 ∧ s.sp ≠ 0 ∧
      t = (s.pushAt (s.sp - 1) (BitVec.ofNat 8 (s.pc.toNat + 2))).jump (afterPush a (s.sp - 1) v)
  | .ret => s.sp.toNat + 1 ≤ 255 ∧ t = ({ s with sp := BitVec.ofNat 8 (s.sp.toNat + 1) } : State).jump s.top
  | .cmp a b => ∃ u v, s.cell a = .written u ∧ s.cell b = .written v ∧
      t = (s.setFlags (compareFlags u v)).advance 3
  | .jeq a => ∃ v f, s.cell a = .written v ∧ s.fl = .written f ∧
      t = if flagE f then s.jump v else s.advance 2
  | .jmp a => ∃ v, s.cell a = .written v ∧ t = s.jump v
  | .jne a => ∃ v f, s.cell a = .written v ∧ s.fl = .written f ∧
      t = if flagE f then s.advance 2 else s.jump v

/-- A read of unwritten register `a`. -/
def UnwrittenReg (a : Reg) (s : State) (r : HaltRecord) : Prop :=
  s.cell a = .unwritten ∧ r = .unwrittenRead (.reg a) s.pc

/-- A read of unwritten `a`, or of unwritten `b` after a written `a`. -/
def UnwrittenRegs (a b : Reg) (s : State) (r : HaltRecord) : Prop :=
  UnwrittenReg a s r ∨ ((∃ u, s.cell a = .written u) ∧ UnwrittenReg b s r)

/-- The faults of ADD, SUB and MUL. -/
def ArithTrap (sel : AluSel) (a b : Reg) (s : State) (r : HaltRecord) : Prop :=
  UnwrittenRegs a b s r ∨
  ∃ u v, s.cell a = .written u ∧ s.cell b = .written v ∧ s.config.arith = .fault ∧
    (arithResult sel u v < 0 ∨ 255 < arithResult sel u v) ∧ r = .arithRange (arithResult sel u v) s.pc

/-- The faults of JEQ and JNE. -/
def BranchTrap (a : Reg) (s : State) (r : HaltRecord) : Prop :=
  UnwrittenReg a s r ∨ ((∃ v, s.cell a = .written v) ∧ s.fl = .unwritten ∧ r = .unwrittenRead .flags s.pc)

/-- An instruction's faults, in their order. -/
def Trap (i : Instr) (s : State) (r : HaltRecord) : Prop :=
  match i with
  | .ldi _ _ | .hlt => False
  | .prn a | .jmp a => UnwrittenReg a s r
  | .add a b => ArithTrap .add a b s r
  | .sub a b => ArithTrap .sub a b s r
  | .mul a b => ArithTrap .mul a b s r
  | .push a => UnwrittenReg a s r ∨
      ((∃ v, s.cell a = .written v) ∧ s.sp = 0 ∧ r = .outOfRange (-1) s.pc)
  | .pop a => 255 < popNewSp a s ∧ r = .outOfRange (popNewSp a s) s.pc
  | .call a => UnwrittenReg a s r ∨
      ((∃ v, s.cell a = .written v) ∧
        ((255 < s.pc.toNat + 2 ∧ r = .outOfRange (s.pc.toNat + 2) s.pc) ∨
         (s.pc.toNat + 2 ≤ 255 ∧ s.sp = 0 ∧ r = .outOfRange (-1) s.pc)))
  | .ret => 255 < s.sp.toNat + 1 ∧ r = .outOfRange (s.sp.toNat + 1) s.pc
  | .cmp a b => UnwrittenRegs a b s r
  | .jeq a | .jne a => BranchTrap a s r

theorem aluToReg_next {sel : AluSel} {a b : Reg} {s t : State} {n : Byte → Byte → Int}
    (hn : ∀ u v, alu sel u v = some (n u v)) (h : aluToReg sel a b s = .next t) :
    ArithEffect sel a b s t ∨ ∃ r, ArithTrap sel a b s r ∧ t = { s with run := .halted r } := by
  have hr : ∀ u v, arithResult sel u v = n u v := fun u v => by rw [arithResult, hn]; rfl
  rcases withRegs_next h with ⟨u, v, hu, hv, h⟩ | ⟨ha, ht⟩ | ⟨ha, hb, ht⟩
  · simp only [withAlu, hn] at h
    rcases withReduced_next h with ⟨hc, h⟩ | ⟨hm, hc, ht⟩
    · refine .inl ⟨u, v, hu, hv, ?_, ?_⟩
      · rw [hr]; exact hc
      · rw [hr]; injection h with h; exact h.symm
    · refine .inr ⟨_, .inr ⟨u, v, hu, hv, hm, ?_, rfl⟩, ?_⟩
      · rw [hr]; exact hc
      · rw [hr]; exact ht
  · exact .inr ⟨_, .inl (.inl ⟨ha, rfl⟩), ht⟩
  · exact .inr ⟨_, .inl (.inr ⟨ha, hb, rfl⟩), ht⟩

theorem popNewSp_nonneg (a : Reg) (s : State) : 0 ≤ popNewSp a s := by
  unfold popNewSp; split <;> omega

/-- Everything an instruction can do. -/
theorem exec_next {i : Instr} {s t : State} (h : exec i s = .next t) :
    Effect i s t ∨ ∃ r, Trap i s r ∧ t = { s with run := .halted r } := by
  cases i with
  | ldi a imm => injection h with h; exact .inl h.symm
  | hlt => injection h with h; exact .inl h.symm
  | prn a =>
    rcases withReg_next h with ⟨v, hv, h⟩ | ⟨ha, ht⟩
    · injection h with h; exact .inl ⟨v, hv, h.symm⟩
    · exact .inr ⟨_, ⟨ha, rfl⟩, ht⟩
  | add a b => exact aluToReg_next (fun _ _ => rfl) h
  | sub a b => exact aluToReg_next (fun _ _ => rfl) h
  | mul a b => exact aluToReg_next (fun _ _ => rfl) h
  | push a =>
    rcases withReg_next h with ⟨v, hv, h⟩ | ⟨ha, ht⟩
    · rcases withPushSlot_next h with ⟨h0, h⟩ | ⟨h0, ht⟩
      · injection h with h; exact .inl ⟨v, hv, h0, h.symm⟩
      · exact .inr ⟨_, .inr ⟨⟨v, hv⟩, h0, rfl⟩, ht⟩
    · exact .inr ⟨_, .inl ⟨ha, rfl⟩, ht⟩
  | pop a =>
    have h0 := popNewSp_nonneg a s
    simp only [exec, execPop] at h
    rcases withAddress_next h with ⟨_, h1, h⟩ | ⟨h1, ht⟩
    · injection h with h; exact .inl ⟨h1, h.symm⟩
    · exact .inr ⟨_, ⟨by omega, rfl⟩, ht⟩
  | call a =>
    rcases withReg_next h with ⟨v, hv, h⟩ | ⟨ha, ht⟩
    · rcases withAddress_next h with ⟨_, h1, h⟩ | ⟨h1, ht⟩
      · rcases withPushSlot_next h with ⟨h0, h⟩ | ⟨h0, ht⟩
        · injection h with h; exact .inl ⟨v, hv, by omega, h0, h.symm⟩
        · exact .inr ⟨_, .inr ⟨⟨v, hv⟩, .inr ⟨by omega, h0, rfl⟩⟩, ht⟩
      · exact .inr ⟨_, .inr ⟨⟨v, hv⟩, .inl ⟨by omega, rfl⟩⟩, ht⟩
    · exact .inr ⟨_, .inl ⟨ha, rfl⟩, ht⟩
  | ret =>
    simp only [exec, execRet] at h
    rcases withAddress_next h with ⟨_, h1, h⟩ | ⟨h1, ht⟩
    · injection h with h; exact .inl ⟨by omega, h.symm⟩
    · exact .inr ⟨_, ⟨by omega, rfl⟩, ht⟩
  | cmp a b =>
    rcases withRegs_next h with ⟨u, v, hu, hv, h⟩ | ⟨ha, ht⟩ | ⟨ha, hb, ht⟩
    · rw [withAlu_cmp, ofInt_compareFlags] at h
      injection h with h; exact .inl ⟨u, v, hu, hv, h.symm⟩
    · exact .inr ⟨_, .inl ⟨ha, rfl⟩, ht⟩
    · exact .inr ⟨_, .inr ⟨ha, hb, rfl⟩, ht⟩
  | jmp a =>
    rcases withReg_next h with ⟨v, hv, h⟩ | ⟨ha, ht⟩
    · injection h with h; exact .inl ⟨v, hv, h.symm⟩
    · exact .inr ⟨_, ⟨ha, rfl⟩, ht⟩
  | jeq a =>
    rcases withReg_next h with ⟨v, hv, h⟩ | ⟨ha, ht⟩
    · rcases withFlagE_next h with ⟨f, hf, h⟩ | ⟨hf, ht⟩
      · injection h with h; exact .inl ⟨v, f, hv, hf, h.symm⟩
      · exact .inr ⟨_, .inr ⟨⟨v, hv⟩, hf, rfl⟩, ht⟩
    · exact .inr ⟨_, .inl ⟨ha, rfl⟩, ht⟩
  | jne a =>
    rcases withReg_next h with ⟨v, hv, h⟩ | ⟨ha, ht⟩
    · rcases withFlagE_next h with ⟨f, hf, h⟩ | ⟨hf, ht⟩
      · injection h with h; exact .inl ⟨v, f, hv, hf, h.symm⟩
      · exact .inr ⟨_, .inr ⟨⟨v, hv⟩, hf, rfl⟩, ht⟩
    · exact .inr ⟨_, .inl ⟨ha, rfl⟩, ht⟩

/-! ## The converse: when the effect or a fault comes about -/

theorem aluToReg_effect {sel : AluSel} {a b : Reg} {s t : State} {n : Byte → Byte → Int}
    (hn : ∀ u v, alu sel u v = some (n u v)) (h : ArithEffect sel a b s t) : aluToReg sel a b s = .next t := by
  obtain ⟨u, v, hu, hv, hc, rfl⟩ := h
  have hr : arithResult sel u v = n u v := by rw [arithResult, hn]; rfl
  rw [aluToReg, withRegs_written hu hv, withAlu, hn]
  rw [hr] at hc ⊢
  rcases hc with hc | hc
  · exact withReduced_wrap hc _ _
  · exact withReduced_in hc _ _

theorem aluToReg_trap {sel : AluSel} {a b : Reg} {s : State} {r : HaltRecord} {n : Byte → Byte → Int}
    (hn : ∀ u v, alu sel u v = some (n u v)) (h : ArithTrap sel a b s r) : aluToReg sel a b s = raise r s := by
  rcases h with (⟨ha, rfl⟩ | ⟨⟨u, hu⟩, hb, rfl⟩) | ⟨u, v, hu, hv, hm, hc, rfl⟩
  · exact withReg_unwritten ha _
  · rw [aluToReg, withRegs, withReg_written hu]; exact withReg_unwritten hb _
  · have hr : arithResult sel u v = n u v := by rw [arithResult, hn]; rfl
    rw [aluToReg, withRegs_written hu hv, withAlu, hn]
    rw [hr] at hc ⊢
    exact withReduced_fault hm hc _

theorem exec_of_effect {i : Instr} {s t : State} (h : Effect i s t) : exec i s = .next t := by
  cases i with
  | ldi a imm => rw [h]; rfl
  | hlt => rw [h]; rfl
  | prn a => obtain ⟨v, hv, rfl⟩ := h; exact withReg_written hv _
  | add a b => exact aluToReg_effect (fun _ _ => rfl) h
  | sub a b => exact aluToReg_effect (fun _ _ => rfl) h
  | mul a b => exact aluToReg_effect (fun _ _ => rfl) h
  | push a =>
    obtain ⟨v, hv, h0, rfl⟩ := h
    exact (withReg_written hv _).trans (withPushSlot_pos h0 _)
  | pop a =>
    obtain ⟨h1, rfl⟩ := h
    simp only [exec, execPop, withAddress, if_pos (And.intro (popNewSp_nonneg a s) h1)]
  | call a =>
    obtain ⟨v, hv, h1, h0, rfl⟩ := h
    simp only [exec, execCall]
    rw [withReg_written hv, withReturnAddress]
    exact (withAddress_in h1 s _).trans (withPushSlot_pos h0 _)
  | ret =>
    obtain ⟨h1, rfl⟩ := h
    simp only [exec, execRet]
    exact withAddress_in h1 s _
  | cmp a b =>
    obtain ⟨u, v, hu, hv, rfl⟩ := h
    simp only [exec, execCmp]
    rw [withRegs_written hu hv, withAlu_cmp, ofInt_compareFlags]
  | jmp a => obtain ⟨v, hv, rfl⟩ := h; exact withReg_written hv _
  | jeq a =>
    obtain ⟨v, f, hv, hf, rfl⟩ := h
    exact (withReg_written hv _).trans (withFlagE_written hf _)
  | jne a =>
    obtain ⟨v, f, hv, hf, rfl⟩ := h
    exact (withReg_written hv _).trans (withFlagE_written hf _)

theorem exec_of_trap {i : Instr} {s : State} {r : HaltRecord} (h : Trap i s r) : exec i s = raise r s := by
  cases i with
  | ldi a imm => cases h
  | hlt => cases h
  | prn a => obtain ⟨ha, rfl⟩ := h; exact withReg_unwritten ha _
  | jmp a => obtain ⟨ha, rfl⟩ := h; exact withReg_unwritten ha _
  | add a b => exact aluToReg_trap (fun _ _ => rfl) h
  | sub a b => exact aluToReg_trap (fun _ _ => rfl) h
  | mul a b => exact aluToReg_trap (fun _ _ => rfl) h
  | push a =>
    rcases h with ⟨ha, rfl⟩ | ⟨⟨v, hv⟩, h0, rfl⟩
    · exact withReg_unwritten ha _
    · exact (withReg_written hv _).trans (withPushSlot_zero h0 _)
  | pop a =>
    obtain ⟨h1, rfl⟩ := h
    simp only [exec, execPop]
    exact withAddress_out (.inr h1) s _
  | call a =>
    rcases h with ⟨ha, rfl⟩ | ⟨⟨v, hv⟩, ⟨h1, rfl⟩ | ⟨h1, h0, rfl⟩⟩
    · exact withReg_unwritten ha _
    · simp only [exec, execCall]
      rw [withReg_written hv, withReturnAddress]
      exact withAddress_out (.inr (by omega)) s _
    · simp only [exec, execCall]
      rw [withReg_written hv, withReturnAddress]
      exact (withAddress_in h1 s _).trans (withPushSlot_zero h0 _)
  | ret =>
    obtain ⟨h1, rfl⟩ := h
    simp only [exec, execRet]
    exact withAddress_out (.inr (by omega)) s _
  | cmp a b =>
    rcases h with ⟨ha, rfl⟩ | ⟨⟨u, hu⟩, hb, rfl⟩
    · exact withReg_unwritten ha _
    · simp only [exec, execCmp]
      rw [withRegs, withReg_written hu]
      exact withReg_unwritten hb _
  | jeq a =>
    rcases h with ⟨ha, rfl⟩ | ⟨⟨v, hv⟩, hf, rfl⟩
    · exact withReg_unwritten ha _
    · exact (withReg_written hv _).trans (withFlagE_unwritten hf _)
  | jne a =>
    rcases h with ⟨ha, rfl⟩ | ⟨⟨v, hv⟩, hf, rfl⟩
    · exact withReg_unwritten ha _
    · exact (withReg_written hv _).trans (withFlagE_unwritten hf _)

/-- An instruction answers a next state exactly by its effect or by one of its faults. -/
theorem exec_next_iff {i : Instr} {s t : State} :
    exec i s = .next t ↔ Effect i s t ∨ ∃ r, Trap i s r ∧ t = { s with run := .halted r } :=
  ⟨exec_next, fun h => h.elim exec_of_effect fun ⟨_, hT, ht⟩ => by rw [exec_of_trap hT, ht]; rfl⟩

/-! ## Every instruction answers a next state -/

theorem withAddress_total {v : Int} {s : State} {k : Byte → Result} (h : ∀ a, ∃ t, k a = .next t) :
    ∃ t, withAddress v s k = .next t := by
  unfold withAddress; split
  · exact h _
  · exact ⟨_, rfl⟩

theorem withReg_total {r : Reg} {s : State} {k : Byte → Result} (h : ∀ v, ∃ t, k v = .next t) :
    ∃ t, withReg r s k = .next t := by
  unfold withReg; split
  · exact h _
  · exact ⟨_, rfl⟩

theorem withFlagE_total {s : State} {k : Bool → Result} (h : ∀ e, ∃ t, k e = .next t) :
    ∃ t, withFlagE s k = .next t := by
  unfold withFlagE; split
  · exact h _
  · exact ⟨_, rfl⟩

theorem withAlu_total {sel : AluSel} {u v : Byte} {s : State} {k : Int → Result}
    (h : ∀ r, ∃ t, k r = .next t) : ∃ t, withAlu sel u v s k = .next t := by
  unfold withAlu; split
  · exact h _
  · exact ⟨_, rfl⟩

theorem withReduced_total {r : Int} {s : State} {k : Byte → Result} (h : ∀ w, ∃ t, k w = .next t) :
    ∃ t, withReduced r s k = .next t := by
  unfold withReduced; split
  · exact h _
  · split
    · exact h _
    · exact ⟨_, rfl⟩

theorem aluToReg_total (sel : AluSel) (a b : Reg) (s : State) : ∃ t, aluToReg sel a b s = .next t :=
  withReg_total fun _ => withReg_total fun _ => withAlu_total fun _ => withReduced_total fun _ => ⟨_, rfl⟩

/-- No instruction faults or refuses on any path: each answers a next state, which may be a HALTED one. -/
theorem exec_total (i : Instr) (s : State) : ∃ t, exec i s = .next t := by
  cases i with
  | ldi a imm => exact ⟨_, rfl⟩
  | hlt => exact ⟨_, rfl⟩
  | prn a => exact withReg_total fun _ => ⟨_, rfl⟩
  | add a b => exact aluToReg_total .add a b s
  | sub a b => exact aluToReg_total .sub a b s
  | mul a b => exact aluToReg_total .mul a b s
  | push a => exact withReg_total fun _ => withAddress_total fun _ => ⟨_, rfl⟩
  | pop a => simp only [exec, execPop]; exact withAddress_total fun _ => ⟨_, rfl⟩
  | call a => exact withReg_total fun _ => withAddress_total fun _ => withAddress_total fun _ => ⟨_, rfl⟩
  | ret => simp only [exec, execRet]; exact withAddress_total fun _ => ⟨_, rfl⟩
  | cmp a b => exact withReg_total fun _ => withReg_total fun _ => withAlu_total fun _ => ⟨_, rfl⟩
  | jeq a => exact withReg_total fun _ => withFlagE_total fun _ => ⟨_, rfl⟩
  | jmp a => exact withReg_total fun _ => ⟨_, rfl⟩
  | jne a => exact withReg_total fun _ => withFlagE_total fun _ => ⟨_, rfl⟩

/-- A fault's record is a fault and names the instruction's address. -/
theorem Trap.record {i : Instr} {s : State} {r : HaltRecord} (h : Trap i s r) :
    r ≠ .haltOk ∧ recordPc r = some s.pc := by
  cases i <;> simp only [Trap, ArithTrap, BranchTrap, UnwrittenRegs, UnwrittenReg] at h <;> aesop

/-- The memory of a next state: as before, or with one byte stored at the push slot. -/
theorem Effect.mem {i : Instr} {s t : State} (h : Effect i s t) :
    t.mem = s.mem ∨ ((∃ a, i = .push a ∨ i = .call a) ∧ ∃ v, t.mem = Memory.put s.mem (s.sp - 1).toNat v) := by
  cases i <;> simp only [Effect, ArithEffect] at h
  case push a => obtain ⟨v, -, -, rfl⟩ := h; exact .inr ⟨⟨a, .inl rfl⟩, _, rfl⟩
  case call a => obtain ⟨v, -, -, -, rfl⟩ := h; exact .inr ⟨⟨a, .inr rfl⟩, _, rfl⟩
  all_goals left; aesop

/-- A PUSH or a CALL that completes stores one below its SP, without a wrap. -/
theorem Effect.slot {i : Instr} {s t : State} {b : Reg} (h : Effect i s t) (hi : i = .push b ∨ i = .call b) :
    s.sp.toNat = (s.sp - 1).toNat + 1 := by
  have h0 : s.sp ≠ 0 := by
    rcases hi with rfl | rfl
    · obtain ⟨-, -, h0, -⟩ := h; exact h0
    · obtain ⟨-, -, -, h0, -⟩ := h; exact h0
  bv_omega

/-! ## What an effect leaves alone -/

theorem Effect.config {i : Instr} {s t : State} (h : Effect i s t) : t.config = s.config := by
  cases i <;> simp only [Effect, ArithEffect] at h <;> aesop

theorem Effect.run {i : Instr} {s t : State} (h : Effect i s t) : t.run = s.run ∨ i = .hlt := by
  cases i <;> simp only [Effect, ArithEffect] at h <;> aesop

theorem Effect.fl {i : Instr} {s t : State} (h : Effect i s t) : t.fl = s.fl ∨ ∃ a b, i = .cmp a b := by
  cases i <;> simp only [Effect, ArithEffect] at h <;> aesop

theorem Effect.out {i : Instr} {s t : State} (h : Effect i s t) : t.out = s.out ∨ ∃ a, i = .prn a := by
  cases i <;> simp only [Effect, ArithEffect] at h <;> aesop

/-! ## A step -/

/-- The record of a refused decoding is a fault and names the address fetched from. -/
theorem recordOf_record (e : DecodeError) (p : Pc) : recordOf e p ≠ .haltOk ∧ recordPc (recordOf e p) = some p := by
  cases e <;> simp [recordOf, recordPc]

/-- Everything a step can do: the fetched instruction's effect, or a fault that changes the run state alone. -/
theorem step_cases {s t : State} (h : step s = .next t) :
    s.run = .running ∧
    ((∃ i rest, s.fetch = .instr i rest ∧ exec i s = .next t ∧ Effect i s t) ∨
     (∃ i rest r, s.fetch = .instr i rest ∧ Trap i s r ∧ t = { s with run := .halted r }) ∨
     (∃ e, s.fetch = .rejected e ∧ t = { s with run := .halted (recordOf e s.pc) })) := by
  obtain ⟨hr, ⟨i, rest, hf, he⟩ | h⟩ := step_next h
  · refine ⟨hr, ?_⟩
    rcases exec_next he with h | ⟨r, hT, ht⟩
    · exact .inl ⟨i, rest, hf, he, h⟩
    · exact .inr (.inl ⟨i, rest, r, hf, hT, ht⟩)
  · exact ⟨hr, .inr (.inr h)⟩

/-- A step that does not store at an address leaves the byte there. -/
theorem step_get {s t : State} {a : Nat} (h : step s = .next t) (hs : ¬ StoresAt s t a) :
    Memory.get t.mem a = Memory.get s.mem a := by
  obtain ⟨hr, ⟨i, rest, hf, -, he⟩ | ⟨i, rest, r, -, -, rfl⟩ | ⟨e, -, rfl⟩⟩ := step_cases h
  · obtain hm | ⟨⟨b, hi⟩, v, hm⟩ := he.mem
    · rw [hm]
    · rw [hm]
      apply Memory.get_put_ne
      rintro rfl
      refine hs ⟨?_, he.slot hi, b, rest, by rw [hf]; exact hi.imp (congrArg (Decoded.instr · rest)) (congrArg (Decoded.instr · rest))⟩
      obtain hrun | rfl := he.run
      · rw [hrun, hr]
      · simp at hi
  · rfl
  · rfl

/-- A run that does not store at an address leaves the byte there. -/
theorem ReachesWithoutStore.get {a : Nat} {s t : State} (h : ReachesWithoutStore a s t) :
    Memory.get t.mem a = Memory.get s.mem a := by
  induction h with
  | refl => rfl
  | tail _ hstep hs ih => rw [step_get hstep hs, ih]

/-- The same with every fault alike. -/
theorem step_effect_or_fault {s t : State} (h : step s = .next t) :
    s.run = .running ∧
    ((∃ i rest, s.fetch = .instr i rest ∧ exec i s = .next t ∧ Effect i s t) ∨
     (∃ r, r ≠ .haltOk ∧ recordPc r = some s.pc ∧ t = { s with run := .halted r })) := by
  obtain ⟨hr, h | ⟨i, rest, r, -, hT, ht⟩ | ⟨e, -, ht⟩⟩ := step_cases h
  · exact ⟨hr, .inl h⟩
  · exact ⟨hr, .inr ⟨r, hT.record.1, hT.record.2, ht⟩⟩
  · exact ⟨hr, .inr ⟨_, (recordOf_record e s.pc).1, (recordOf_record e s.pc).2, ht⟩⟩

end Sys2Proof.Machine
end

