-- ==== Sys2Proof/Laws/PerInstr.lean ====
section
/-! SUPPORT. Laws of the instructions as syntax, one lemma per constructor (the families of LAWS.json). -/

/-- Under a well-formed OPCODE every instruction is well-formed: its opcode byte is its own (R95). -/
def Sys2Proof.Laws.WellFormed.Statement (i : Sys2Proof.Instr) : Prop :=
  ∀ o : Sys2Proof.OpcodeMap, o.wf = true → i.wf o = true

namespace Sys2Proof.Laws.WellFormed

/-- The opcode byte decides it, whatever the operands. -/
theorem of_mnemonic (i : Instr) : Statement i :=
  fun _ h => Instr.wf_iff.mpr fun _ e => OpcodeMap.byteOf_injective h e

theorem ldi (a : Reg) (imm : Byte) : Statement (.ldi a imm) := of_mnemonic _
theorem prn (a : Reg) : Statement (.prn a) := of_mnemonic _
theorem hlt : Statement .hlt := of_mnemonic _
theorem add (a b : Reg) : Statement (.add a b) := of_mnemonic _
theorem sub (a b : Reg) : Statement (.sub a b) := of_mnemonic _
theorem mul (a b : Reg) : Statement (.mul a b) := of_mnemonic _
theorem push (a : Reg) : Statement (.push a) := of_mnemonic _
theorem pop (a : Reg) : Statement (.pop a) := of_mnemonic _
theorem call (a : Reg) : Statement (.call a) := of_mnemonic _
theorem ret : Statement .ret := of_mnemonic _
theorem cmp (a b : Reg) : Statement (.cmp a b) := of_mnemonic _
theorem jeq (a : Reg) : Statement (.jeq a) := of_mnemonic _
theorem jmp (a : Reg) : Statement (.jmp a) := of_mnemonic _
theorem jne (a : Reg) : Statement (.jne a) := of_mnemonic _

end Sys2Proof.Laws.WellFormed
end

