-- ==== Sys2Proof/Machine/Assembler.lean ====
section
/-! DEFINITION. The assembler syntax of one instruction, written and read (spec/30_encoding.md R102). It has
no effect on the machine. -/

namespace Sys2Proof.Machine

/-- The spelling of a mnemonic (R102). -/
def mnemonicName : Mnemonic → String
  | .ldi => "LDI"
  | .prn => "PRN"
  | .hlt => "HLT"
  | .add => "ADD"
  | .sub => "SUB"
  | .mul => "MUL"
  | .push => "PUSH"
  | .pop => "POP"
  | .call => "CALL"
  | .ret => "RET"
  | .cmp => "CMP"
  | .jeq => "JEQ"
  | .jmp => "JMP"
  | .jne => "JNE"

/-- A digit character's value, in either case for hexadecimal. -/
def digitValue (c : Char) : Option Nat :=
  let n := c.toNat
  if 48 ≤ n ∧ n ≤ 57 then some (n - 48)
  else if 65 ≤ n ∧ n ≤ 70 then some (n - 55)
  else if 97 ≤ n ∧ n ≤ 102 then some (n - 87)
  else none

/-- Digits of a base read after a value already read. -/
def digitsFrom (base acc : Nat) : List Char → Option Nat
  | [] => some acc
  | c :: cs =>
    match digitValue c with
    | some d => if d < base then digitsFrom base (acc * base + d) cs else none
    | none => none

/-- A number of at least one digit. -/
def parseNumber (base : Nat) (cs : List Char) : Option Nat :=
  if cs.isEmpty then none else digitsFrom base 0 cs

/-- An immediate: decimal, hexadecimal with `0x` or binary with `0b`, of value 0..255 (R93, R102). -/
def parseImm (cs : List Char) : Option Byte :=
  let n := match cs with
    | '0' :: 'x' :: ds => parseNumber 16 ds
    | '0' :: 'b' :: ds => parseNumber 2 ds
    | _ => parseNumber 10 cs
  match n with
  | some v => if v ≤ 255 then some (BitVec.ofNat 8 v) else none
  | none => none

/-- A register: `R0`..`R7`, or `SP` for R7 (R102). -/
def parseReg : List Char → Option Reg
  | ['S', 'P'] => some Reg.sp
  | ['R', c] =>
    match parseNumber 10 [c] with
    | some n => if h : n < 8 then some ⟨n, h⟩ else none
    | none => none
  | _ => none

/-- Split an operand field at its commas; a blank after a comma is dropped (R102). -/
def splitOperands : List Char → List (List Char)
  | [] => [[]]
  | ',' :: ' ' :: cs => [] :: splitOperands cs
  | ',' :: cs => [] :: splitOperands cs
  | c :: cs =>
    match splitOperands cs with
    | [] => [[c]]
    | f :: fs => (c :: f) :: fs

/-- An instruction's mnemonic and its operand fields: none when no blank follows the mnemonic. -/
def splitLine (cs : List Char) : List Char × List (List Char) :=
  match cs.dropWhile (fun c => c != ' ') with
  | [] => (cs, [])
  | _ :: fields => (cs.takeWhile (fun c => c != ' '), splitOperands fields)

/-- An instruction of a known mnemonic from its operand fields (R91, R112). -/
def parseOperands (fields : List (List Char)) : Mnemonic → Option Instr
  | .ldi => match fields with
    | [a, b] => (parseReg a).bind fun ra => (parseImm b).map fun imm => .ldi ra imm
    | _ => none
  | .prn => one .prn
  | .hlt => zero .hlt
  | .add => two .add
  | .sub => two .sub
  | .mul => two .mul
  | .push => one .push
  | .pop => one .pop
  | .call => one .call
  | .ret => zero .ret
  | .cmp => two .cmp
  | .jeq => one .jeq
  | .jmp => one .jmp
  | .jne => one .jne
where
  zero (i : Instr) : Option Instr := if fields.isEmpty then some i else none
  one (mk : Reg → Instr) : Option Instr :=
    match fields with
    | [a] => (parseReg a).map mk
    | _ => none
  two (mk : Reg → Reg → Instr) : Option Instr :=
    match fields with
    | [a, b] => (parseReg a).bind fun ra => (parseReg b).map fun rb => mk ra rb
    | _ => none

/-- Read one instruction (R102). -/
def assemble (line : String) : Option Instr :=
  let (name, fields) := splitLine line.toList
  (Mnemonic.all.find? fun m => (mnemonicName m).toList == name).bind (parseOperands fields)

/-- A register as the source writes it: `R` and its index (R102). -/
def regName (r : Reg) : String := String.ofList ['R', Char.ofNat (48 + r.val)]

/-- An immediate as a decimal number (R102). -/
def immName (v : Byte) : String :=
  let n := v.toNat
  let d (k : Nat) : Char := Char.ofNat (48 + k)
  String.ofList
    (if n < 10 then [d n] else if n < 100 then [d (n / 10), d (n % 10)]
     else [d (n / 100), d (n / 10 % 10), d (n % 10)])

/-- Write one instruction as the source writes it: the mnemonic, then its operands separated by a comma
(R102). -/
def render (i : Instr) : String :=
  let name := mnemonicName i.mnemonic
  match i with
  | .ldi a imm => name ++ " " ++ regName a ++ "," ++ immName imm
  | .hlt | .ret => name
  | .prn a | .push a | .pop a | .call a | .jeq a | .jmp a | .jne a => name ++ " " ++ regName a
  | .add a b | .sub a b | .mul a b | .cmp a b => name ++ " " ++ regName a ++ "," ++ regName b

end Sys2Proof.Machine
end

