-- ==== Sys2Proof/Tests/Slice0.lean ====
section
/-! SUPPORT. Tests: well-formedness smoke tests, every constructor's decoding from a word written out from the
spec's encoding, one-step vectors of spec/95_test_vectors.md, and a witness for the hypotheses of each
statement. Expected values come from the spec's tables, never from the model. -/

namespace Sys2Proof.Tests

open Sys2Proof.Machine

/-! ## Helpers -/

/-- The next state, if there is one. -/
def after (r : Result) : Option State :=
  match r with
  | .next t => some t
  | .fault _ => none
  | .refused _ => none

/-- The spec's own reset choice: registers 0..6 and FL unwritten. -/
def blank : State := State.resetWith defaultConfig .unwritten .unwritten

/-- `s` at `pc` with bytes in memory from `pc` on. -/
def placed (pc : Nat) (bs : List Byte) (s : State) : State :=
  { s with pc := BitVec.ofNat 9 pc, mem := Memory.putFrom s.mem pc bs }

/-- `s` with one byte of memory set. -/
def poked (a v : Byte) (s : State) : State := s.store a v

/-- `s` under ARITH_OUT_OF_RANGE = fault. -/
def faulting (s : State) : State := { s with config := { s.config with arith := .fault } }

/-- The next state a result answers. -/
def nextOf (r : Result) : State := (after r).getD blank

/-- A result that answers some next state answers `nextOf` of itself. -/
theorem runs {r : Result} (h : (after r).isSome = true) : r = .next (nextOf r) := by
  cases r with
  | next t => rfl
  | fault f => cases h
  | refused q => cases h

/-- A step's effect on one thing. -/
def look {α : Type} (s : State) (f : State → α) : Option α := (after (step s)).map f

/-- The record a step halts with, and whether it changed the run state only. -/
def haltsWith (s : State) (r : HaltRecord) : Bool :=
  decide (after (step s) = some { s with run := .halted r })

/-! ## Well-formedness: each check refuses an ill-formed term -/

theorem test_wf_recommended : OpcodeMap.recommended.wf = true := by decide
theorem test_wf_refuses_shared_byte : ({ OpcodeMap.recommended with sub := 0xA0 } : OpcodeMap).wf = false := by decide
theorem test_wf_refuses_ldi_byte : ({ OpcodeMap.recommended with add := 0x82 } : OpcodeMap).wf = false := by decide
theorem test_wf_refuses_prn_byte : ({ OpcodeMap.recommended with jne := 0x47 } : OpcodeMap).wf = false := by decide
theorem test_wf_refuses_hlt_byte : ({ OpcodeMap.recommended with ret := 0x01 } : OpcodeMap).wf = false := by decide
theorem test_wf_instr : (Instr.add 0 1).wf .recommended = true := by decide
theorem test_wf_refuses_instr : (Instr.add 0 1).wf { OpcodeMap.recommended with add := 0x82 } = false := by decide
theorem test_wf_image : imageWf (List.replicate 256 0) = true := by simp only [imageWf, List.length_replicate]; decide
theorem test_wf_refuses_image : imageWf (List.replicate 257 0) = false := by simp only [imageWf, List.length_replicate]; decide
theorem test_wf_memory : Memory.wf [(3, 1), (255, 7)] = true := by decide
theorem test_wf_refuses_unsorted : Memory.wf [(3, 1), (2, 7)] = false := by decide
theorem test_wf_refuses_zero_entry : Memory.wf [(3, 0)] = false := by decide
theorem test_wf_refuses_far_entry : Memory.wf [(256, 1)] = false := by decide

/-! ## Decoding: words written out bit by bit (R91, R94, R96) -/

theorem test_decode_ldi : decode .recommended [0b10000010#8, 0b00000101#8, 0b11111111#8] = .instr (.ldi 5 255) [] := by decide
theorem test_decode_prn : decode .recommended [0b01000111#8, 0b00000010#8] = .instr (.prn 2) [] := by decide
theorem test_decode_hlt : decode .recommended [0b00000001#8, 0b11110000#8] = .instr .hlt [0b11110000#8] := by decide
theorem test_decode_add : decode .recommended [0b10100000#8, 0b00000000#8, 0b00000001#8] = .instr (.add 0 1) [] := by decide
theorem test_decode_sub : decode .recommended [0b10100001#8, 0b00000010#8, 0b00000011#8] = .instr (.sub 2 3) [] := by decide
theorem test_decode_mul : decode .recommended [0b10100010#8, 0b00000111#8, 0b00000100#8] = .instr (.mul 7 4) [] := by decide
theorem test_decode_push : decode .recommended [0b01000101#8, 0b00000110#8] = .instr (.push 6) [] := by decide
theorem test_decode_pop : decode .recommended [0b01000110#8, 0b00000111#8] = .instr (.pop 7) [] := by decide
theorem test_decode_call : decode .recommended [0b01010000#8, 0b00000001#8] = .instr (.call 1) [] := by decide
theorem test_decode_ret : decode .recommended [0b00010001#8] = .instr .ret [] := by decide
theorem test_decode_cmp : decode .recommended [0b10100111#8, 0b00000001#8, 0b00000000#8] = .instr (.cmp 1 0) [] := by decide
theorem test_decode_jeq : decode .recommended [0b01010101#8, 0b00000001#8] = .instr (.jeq 1) [] := by decide
theorem test_decode_jmp : decode .recommended [0b01010100#8, 0b00000011#8] = .instr (.jmp 3) [] := by decide
theorem test_decode_jne : decode .recommended [0b01010110#8, 0b00000111#8] = .instr (.jne 7) [] := by decide
theorem test_decode_illegal : decode .recommended [0x00] = .rejected (.invalidInstruction 0) := by decide
theorem test_decode_bad_register : decode .recommended [0x82, 0x08, 0x01] = .rejected (.invalidRegister 8) := by decide
theorem test_decode_short : decode .recommended [0xA0, 0xFF] = .rejected (.missingOperand 2) := by decide
theorem test_decode_other_opcodes :
    decode { OpcodeMap.recommended with add := 0xA1, sub := 0xA0 } [0xA0, 0, 1] = .instr (.sub 0 1) [] := by decide

/-! ## The host's probes -/

theorem test_tableWord_ldi : decodeTableWord 24 0x080082 = some (.ldi 0 8) := by decide
theorem test_tableWord_short : decodeTableWord 8 0x070782 = some (.ldi 0 0) := by decide
theorem test_fetchWord_runs : look (State.reset.withFetchWord 24 0x080082) (fun t => (t.cell 0, t.pc)) = some (.written 8, 3) := by decide
theorem test_fetchWord_prn : look (State.reset.withFetchWord 16 0x0047) (fun t => t.out) = some [0] := by decide

/-! ## Steps: the vectors of spec/95_test_vectors.md -/

theorem test_V1_ldi : look (placed 0 [0x82, 5, 0xFF] blank) (fun t => (t.cell 5, t.pc)) = some (.written 255, 3) := by decide
theorem test_V2_ldi_sp : look (placed 0 [0x82, 7, 0x10] blank) (fun t => (t.sp, t.pc)) = some (0x10, 3) := by decide
theorem test_V3_ldi_invalid : haltsWith (placed 0 [0x82, 8, 1] blank) (.invalidRegister 8 0) = true := by decide
theorem test_V4_prn : look (placed 0 [0x47, 2] (blank.setReg 2 0xAB)) (fun t => (t.out, t.pc)) = some ([171], 2) := by decide
theorem test_V6_prn_unwritten : haltsWith (placed 0 [0x47, 3] blank) (.unwrittenRead (.reg 3) 0) = true := by decide
theorem test_V8_hlt : haltsWith (placed 9 [0x01] blank) .haltOk = true := by decide
theorem test_V21_add : look (placed 0 [0xA0, 0, 1] ((blank.setReg 0 200).setReg 1 100)) (fun t => (t.cell 0, t.pc)) = some (.written 44, 3) := by decide
theorem test_V21_add_fault : haltsWith (faulting (placed 0 [0xA0, 0, 1] ((blank.setReg 0 200).setReg 1 100))) (.arithRange 300 0) = true := by decide
theorem test_V27_sub : look (placed 0 [0xA1, 0, 1] ((blank.setReg 0 3).setReg 1 5)) (fun t => t.cell 0) = some (.written 254) := by decide
theorem test_V28_sub_fault : haltsWith (faulting (placed 0 [0xA1, 0, 1] ((blank.setReg 0 0).setReg 1 255))) (.arithRange (-255) 0) = true := by decide
theorem test_V32_mul : look (placed 0 [0xA2, 0, 1] ((blank.setReg 0 255).setReg 1 255)) (fun t => t.cell 0) = some (.written 1) := by decide
theorem test_V34_mul_unwritten : haltsWith (placed 0 [0xA2, 3, 3] blank) (.unwrittenRead (.reg 3) 0) = true := by decide
theorem test_V44_cmp : look (placed 0 [0xA7, 0, 1] ((blank.setReg 0 0).setReg 1 255)) (fun t => t.fl) = some (.written 0b100) := by decide
theorem test_V45_cmp_replaces : look (placed 0 [0xA7, 0, 1] (((blank.setReg 0 255).setReg 1 0).setFlags 0b001)) (fun t => (t.fl, t.pc)) = some (.written 0b010, 3) := by decide
theorem test_V51_push : look (placed 16 [0x45, 0] ((blank.setReg 0 9).setReg 7 1)) (fun t => (t.sp, t.byteAt 0, t.pc)) = some (0, 9, 18) := by decide
theorem test_V53_push_sp : look (placed 0 [0x45, 7] blank) (fun t => (t.sp, t.byteAt 0xF3)) = some (0xF3, 0xF3) := by decide
theorem test_V56_pop_empty : look (poked 0xF4 0x5A (placed 0 [0x46, 2] blank)) (fun t => (t.cell 2, t.sp, t.pc)) = some (.written 0x5A, 0xF5, 2) := by decide
theorem test_V58_pop_sp : look (poked 0xF3 0x80 (placed 0 [0x46, 7] (blank.setReg 7 0xF3))) (fun t => t.sp) = some 0x81 := by decide
theorem test_V60_call : look (placed 0x10 [0x50, 1] (blank.setReg 1 0x40)) (fun t => (t.sp, t.byteAt 0xF3, t.pc)) = some (0xF3, 0x12, 0x40) := by decide
theorem test_V62_call_order : haltsWith (placed 254 [0x50, 1] blank) (.unwrittenRead (.reg 1) 254) = true := by decide
theorem test_V65_ret : look (poked 0xF3 0x12 (placed 0x40 [0x11] (blank.setReg 7 0xF3))) (fun t => (t.sp, t.pc)) = some (0xF4, 0x12) := by decide
theorem test_V66_ret_range : haltsWith (placed 0x40 [0x11] (blank.setReg 7 255)) (.outOfRange 256 0x40) = true := by decide
theorem test_V70_jmp : look (placed 0x20 [0x54, 1] (blank.setReg 1 5)) (fun t => t.pc) = some 5 := by decide
theorem test_V72_jeq_taken : look (placed 0x20 [0x55, 1] ((blank.setReg 1 5).setFlags 0b001)) (fun t => t.pc) = some 5 := by decide
theorem test_V76_jeq_reads_untaken : haltsWith (placed 0x20 [0x55, 1] (blank.setFlags 0b010)) (.unwrittenRead (.reg 1) 0x20) = true := by decide
theorem test_V79_jne_taken : look (placed 0x20 [0x56, 1] ((blank.setReg 1 5).setFlags 0b010)) (fun t => t.pc) = some 5 := by decide
theorem test_V81_jne_flags : haltsWith (placed 0x20 [0x56, 1] (blank.setReg 1 5)) (.unwrittenRead .flags 0x20) = true := by decide
theorem test_V92_fetch : haltsWith { blank with pc := 256 } (.outOfRange 256 256) = true := by decide
theorem test_V94_operand : haltsWith (placed 254 [0x82, 0] blank) (.outOfRange 256 254) = true := by decide
theorem test_V95_top : look (placed 253 [0xA0, 0, 1] ((blank.setReg 0 1).setReg 1 2)) (fun t => (t.cell 0, t.pc)) = some (.written 3, 256) := by decide
theorem test_V97_order : haltsWith (placed 0 [0xA0, 0, 8] blank) (.invalidRegister 8 0) = true := by decide

/-! ## The host's view and the assembler (R102, R260, R285) -/

theorem test_exit_status : exitsZero .haltOk = true ∧ exitsZero (.invalidInstruction 0 3) = false := by decide
theorem test_trace_at_top :
    (traceLine { blank with pc := 255 }).bytes = [some 0, none, none] ∧
    (traceLine blank).regs.getLast? = some (.written 0xF4) := by decide
theorem test_assemble_source : assemble "LDI R0,8" = some (.ldi 0 8) ∧ assemble "HLT" = some .hlt := by decide
theorem test_assemble_forms : assemble "LDI SP, 0xF4" = some (.ldi 7 0xF4) ∧ assemble "LDI R1,0b101" = some (.ldi 1 5) ∧
    assemble "LDI R1,256" = none ∧ assemble "PRN R8" = none := by decide
theorem test_render : render (.ldi 0 8) = "LDI R0,8" ∧ render (.cmp 1 7) = "CMP R1,R7" ∧ render .ret = "RET" := by decide

/-! ## Witnesses: each statement's hypotheses are met together, each clause at a boundary value -/

/-- A running state with every register 1, FL = E, SP = 1 and a full range of bytes to pop. -/
def ready : State := { State.reset with
  gpr := Vector.replicate 7 (.written 1), sp := 1, fl := .written 0b001, mem := [(1, 254)] }

theorem witness_LaunchSetsEveryRow :
    (List.replicate 256 (7 : Byte)).length ≤ 256 ∧ 255 < (List.replicate 256 (7 : Byte)).length ∧
    ([] : List Byte).length ≤ 255 := by
  simp only [List.length_replicate]; decide
theorem witness_OverlongImage : 256 < (List.replicate 257 (7 : Byte)).length := by
  simp only [List.length_replicate]; decide
theorem witness_LaunchMeetsInvariant : ∃ s, OpcodeMap.recommended.wf = true ∧
    launch { opcode := .recommended, arith := .fault } .unwritten .zero (Vector.replicate 256 9) [1] = some s :=
  ⟨_, by decide, rfl⟩
theorem witness_LaunchedRuns : ∃ s t, defaultConfig.opcode.wf = true ∧
    launch defaultConfig .zero .zero (Vector.replicate 256 0) [1] = some s ∧ Reaches s t :=
  ⟨_, _, by decide, rfl, Reaches.refl _⟩
theorem witness_StepKeepsInvariant : ∃ s t, s.Inv ∧ step s = .next t :=
  ⟨placed 253 [0xA0, 0, 1] ready, _, by decide, rfl⟩
theorem witness_StepIsDefined : ready.run = .running ∧
    ({ ready with run := .halted .haltOk } : State).run = .halted .haltOk := by decide
theorem witness_HaltedRuns : ∃ s t r, s.run = .halted r ∧ Reaches s t :=
  ⟨{ ready with run := .halted (.outOfRange (-1) 0) }, _, _, rfl, Reaches.refl _⟩
theorem witness_HaltingStep_hlt : ∃ t, step (placed 255 [0x01] ready) = .next t ∧ t.run = .halted .haltOk := ⟨_, rfl, rfl⟩
theorem witness_HaltingStep_fault : ∃ t, step (placed 255 [0x47] ready) = .next t ∧
    t.run = .halted (.outOfRange 256 255) ∧ recordPc (.outOfRange 256 255) = some 255 := ⟨_, rfl, rfl, rfl⟩
theorem witness_OnlyHlt_pc : ∃ t, step (placed 255 [0x01] ready) = .next t ∧ t.run = .halted .haltOk ∧ t.pc = 255 :=
  ⟨_, rfl, rfl, by decide⟩
theorem witness_OnlyHlt : (placed 255 [0x01] ready).run = .running ∧ (placed 255 [0x01] ready).pc.toNat ≤ 255 ∧
    Memory.get (placed 255 [0x01] ready).mem (placed 255 [0x01] ready).pc.toNat = 0x01 := by decide
theorem witness_OnlyCmp : ∃ t, step (placed 0 [0xA7, 0, 7] { ready with fl := .unwritten }) = .next t ∧
    t.fl ≠ .unwritten ∧ t.run = .running ∧
    (placed 0 [0xA7, 0, 7] ready).fetch = .instr (.cmp 0 7) [] := ⟨_, rfl, by decide, rfl, by decide⟩
theorem witness_OnlyPrn : ∃ t, step (placed 254 [0x47, 7] ready) = .next t ∧ t.out ≠ [] ∧ t.run = .running ∧
    (placed 254 [0x47, 7] ready).fetch = .instr (.prn 7) [] := ⟨_, rfl, by decide, rfl, by decide⟩
theorem witness_OnlyEqual : ∃ t, flagE 0b010 = flagE 0b100 ∧
    exec (.jne 0) { ready with fl := .written 0b010 } = .next t ∧
    (∀ a, Instr.cmp 0 1 ≠ .jeq a ∧ Instr.cmp 0 1 ≠ .jne a) ∧ ready.cell 7 = .written 1 :=
  ⟨_, by decide, rfl, by decide, rfl⟩
theorem witness_WrittenStay : ∃ t, step (placed 0 [0x46, 6] ready) = .next t ∧ ready.cell 6 ≠ .unwritten ∧
    ready.fl ≠ .unwritten := ⟨_, runs (by decide), by decide, by decide⟩
theorem witness_DecodeAfterEncode : (Instr.ldi 7 255).wf .recommended = true ∧ OpcodeMap.recommended.wf = true ∧
    (Instr.ldi 7 255).wf { OpcodeMap.recommended with add := 0xA1 } = true := by decide
theorem witness_EncodeAfterDecode : decode .recommended [0x82, 7, 0xFF, 3] = .instr (.ldi 7 255) [3] := by decide
theorem witness_StepRuns : (placed 255 [0x11] ready).run = .running ∧
    (placed 255 [0x11] ready).fetch = .instr .ret [] := by decide
theorem witness_EncodedAtPc : (placed 253 [0x82, 7, 9] ready).run = .running ∧
    (Instr.ldi 7 9).wf (placed 253 [0x82, 7, 9] ready).config.opcode = true ∧
    (placed 253 [0x82, 7, 9] ready).pc.toNat + (Instr.ldi 7 9).width ≤ 256 ∧
    BytesAt (placed 253 [0x82, 7, 9] ready).mem (placed 253 [0x82, 7, 9] ready).pc.toNat
      (encode (placed 253 [0x82, 7, 9] ready).config.opcode (.ldi 7 9)) := by
  refine ⟨rfl, by decide, by decide, ?_⟩
  intro k hk
  match k, hk with
  | 0, _ => rfl
  | 1, _ => rfl
  | 2, _ => rfl
  | k + 3, h => exact absurd h (by simp [encode, Instr.operandBytes])
theorem witness_FetchReads : (placed 255 [0x01] ready).fetch = .instr .hlt [] ∧
    ∀ k, k < Instr.hlt.width → Memory.get [(255, 1)] ((placed 255 [0x01] ready).pc.toNat + k) =
      Memory.get (placed 255 [0x01] ready).mem ((placed 255 [0x01] ready).pc.toNat + k) := by decide
theorem witness_IllegalOpcode : (placed 255 [0xFF] ready).run = .running ∧ (placed 255 [0xFF] ready).pc.toNat ≤ 255 ∧
    ∀ m ∈ Mnemonic.all, (placed 255 [0xFF] ready).config.opcode.byteOf m ≠
      Memory.get (placed 255 [0xFF] ready).mem (placed 255 [0xFF] ready).pc.toNat := by decide
theorem witness_IllegalOpcode_only : ∃ t, step (placed 255 [0xFF] ready) = .next t ∧
    t.run = .halted (.invalidInstruction 0xFF 255) := ⟨_, rfl, rfl⟩
theorem witness_BytesPastTheTop : ({ ready with pc := 256 } : State).run = .running ∧
    255 < ({ ready with pc := 256 } : State).pc.toNat ∧
    ready.config.opcode.dispatch (Memory.get (placed 255 [0x47] ready).mem 255) = some .prn ∧
    1 < Mnemonic.prn.format.width ∧ 255 + 1 = 256 ∧
    ready.config.opcode.dispatch (Memory.get (placed 254 [0xA0, 0] ready).mem 254) = some .add ∧
    2 < Mnemonic.add.format.width ∧ 254 + 2 = 256 := by decide
theorem witness_RegisterBytes : (placed 253 [0xA0, 7, 8] ready).run = .running ∧ 253 + Mnemonic.add.format.width ≤ 256 ∧
    (placed 253 [0xA0, 7, 8] ready).config.opcode.dispatch (Memory.get (placed 253 [0xA0, 7, 8] ready).mem 253) = some .add ∧
    Mnemonic.add.format = .RR ∧ (Memory.get (placed 253 [0xA0, 7, 8] ready).mem 254).toNat ≤ 7 ∧
    7 < (Memory.get (placed 253 [0xA0, 7, 8] ready).mem 255).toNat ∧
    7 < (Memory.get (placed 254 [0x45, 8] ready).mem 255).toNat ∧ Mnemonic.push.format ≠ .N ∧
    Mnemonic.hlt.format = .N := by decide
theorem witness_OutOfRange_fetch : ∃ t, step { ready with pc := 256 } = .next t ∧
    t.run = .halted (.outOfRange 256 256) := ⟨_, rfl, rfl⟩
theorem witness_OutOfRange_operand : ∃ t, step (placed 254 [0xA0, 0] ready) = .next t ∧
    t.run = .halted (.outOfRange 256 254) := ⟨_, rfl, rfl⟩
theorem witness_OutOfRange_push : ∃ t, step (placed 4 [0x45, 7] { ready with sp := 0 }) = .next t ∧
    t.run = .halted (.outOfRange (-1) 4) := ⟨_, rfl, rfl⟩
theorem witness_OutOfRange_pop : ∃ t, step (placed 4 [0x46, 0] { ready with sp := 255 }) = .next t ∧
    t.run = .halted (.outOfRange 256 4) := ⟨_, runs (by decide), by decide⟩
theorem witness_OutOfRange_ret : ∃ t, step (placed 4 [0x11] { ready with sp := 255 }) = .next t ∧
    t.run = .halted (.outOfRange 256 4) := ⟨_, runs (by decide), by decide⟩
theorem witness_OutOfRange_call : ∃ t, step (placed 254 [0x50, 0] ready) = .next t ∧
    t.run = .halted (.outOfRange 256 254) := ⟨_, runs (by decide), by decide⟩
theorem witness_NextPc_advance : ∃ t, ({ ready with pc := 253 } : State).pc.toNat + (Instr.ldi 7 0).width ≤ 256 ∧
    ready.run = .running ∧ exec (.ldi 7 0) { ready with pc := 253 } = .next t ∧ t.run = .running :=
  ⟨_, by decide, rfl, rfl, rfl⟩
theorem witness_NextPc_branch : ∃ t, ({ ready with pc := 254 } : State).pc.toNat + (Instr.jne 0).width ≤ 256 ∧
    exec (.jne 0) { ready with pc := 254 } = .next t ∧ t.run = .running := ⟨_, by decide, rfl, rfl⟩
theorem witness_NextPc_call : ∃ t, ({ ready with pc := 253 } : State).pc.toNat + (Instr.call 7).width ≤ 256 ∧
    exec (.call 7) { ready with pc := 253 } = .next t ∧ t.run = .running := ⟨_, by decide, runs (by decide), by decide⟩
theorem witness_Ldi : ({ ready with pc := 253 } : State).pc.toNat + 3 ≤ 256 := by decide
theorem witness_Prn : ({ ready with pc := 254 } : State).pc.toNat + 2 ≤ 256 ∧ ready.cell 7 = .written 1 := by decide
theorem witness_Alu : (255#8).toNat = (255#8).toNat ∧ (255#8).toNat > (0#8).toNat ∧ (0#8).toNat < (255#8).toNat := by decide
theorem witness_Arith_wrap : ({ ready with pc := 253 } : State).pc.toNat + 3 ≤ 256 ∧
    (ready.setReg 0 255).cell 0 = .written 255 ∧ (ready.setReg 0 255).cell 1 = .written 1 ∧
    ready.config.arith = .wrap := by decide
theorem witness_Arith_exact : (faulting ready).config.arith = .fault ∧
    (254#8).toNat + (1#8).toNat ≤ 255 ∧ (1#8).toNat ≤ (1#8).toNat ∧ (15#8).toNat * (17#8).toNat ≤ 255 ∧
    ((faulting ready).setReg 0 254).cell 0 = .written 254 ∧ ((faulting ready).setReg 0 254).cell 1 = .written 1 := by decide
theorem witness_ArithRange : ((faulting ready).setReg 0 255).cell 0 = .written 255 ∧
    (faulting ready).config.arith = .fault ∧ 255 < (255#8).toNat + (1#8).toNat ∧ (0#8).toNat < (1#8).toNat ∧
    255 < (16#8).toNat * (16#8).toNat := by decide
theorem witness_ArithRange_only : ∃ t, step (faulting (placed 0 [0xA0, 0, 1] (ready.setReg 0 255))) = .next t ∧
    t.run = .halted (.arithRange 256 0) := ⟨_, rfl, rfl⟩
theorem witness_Operands : ready.cell 7 = .written 1 ∧ ready.config.arith = .wrap ∧ 2 * (127#8).toNat ≤ 255 ∧
    (15#8).toNat ^ 2 ≤ 255 := by decide
theorem witness_Cmp : ({ ready with pc := 253 } : State).pc.toNat + 3 ≤ 256 ∧ ready.cell 0 = .written 1 ∧
    ready.cell 7 = .written 1 := by decide
theorem witness_Branch : ({ ready with pc := 254 } : State).pc.toNat + 2 ≤ 256 ∧ ready.cell 0 = .written 1 ∧
    ready.fl = .written 0b001 ∧ flagE 0b001 = true ∧ flagE 0b110 = false := by decide
theorem witness_Push : ({ ready with pc := 254 } : State).pc.toNat + 2 ≤ 256 ∧ ready.mem.wf = true ∧
    ready.cell 7 = .written 1 ∧ 1 ≤ ready.sp.toNat ∧ ready.cell 0 = .written 1 := by decide
theorem witness_Pop : ({ ready with pc := 254 } : State).pc.toNat + 2 ≤ 256 ∧ (0 : Reg) ≠ Reg.sp ∧
    ({ ready with sp := 254 } : State).sp.toNat ≤ 254 ∧ (Memory.get ready.mem ready.sp.toNat).toNat ≤ 254 := by decide
theorem witness_Call : ({ ready with pc := 253 } : State).pc.toNat ≤ 253 ∧ ready.mem.wf = true ∧
    ready.cell 7 = .written 1 ∧ 1 ≤ ready.sp.toNat ∧ ready.cell 0 = .written 1 := by decide
theorem witness_Ret : ({ ready with sp := 254 } : State).sp.toNat ≤ 254 := by decide
theorem witness_PushThenPop : ∃ t u, ready.mem.wf = true ∧ ready.run = .running ∧ (0 : Reg) ≠ Reg.sp ∧
    exec (.push 0) ready = .next t ∧ t.run = .running ∧ exec (.pop 0) t = .next u ∧ u.run = .running :=
  ⟨nextOf (exec (.push 0) ready), nextOf (exec (.pop 0) (nextOf (exec (.push 0) ready))),
    by decide, rfl, by decide, runs (by decide), by decide, runs (by decide), by decide⟩
theorem witness_CallThenRet : ∃ t w, ready.mem.wf = true ∧ ready.run = .running ∧
    exec (.call 0) ready = .next t ∧ t.run = .running ∧ exec .ret t = .next w :=
  ⟨nextOf (exec (.call 0) ready), nextOf (exec .ret (nextOf (exec (.call 0) ready))),
    by decide, rfl, runs (by decide), by decide, runs (by decide)⟩
theorem witness_StackRange : ({ ready with sp := 0 } : State).cell 0 = .written 1 ∧
    ({ ready with sp := 0 } : State).cell 7 = .written 0 ∧ ({ ready with pc := 254 } : State).pc.toNat = 254 ∧
    ({ ready with pc := 253 } : State).pc.toNat ≤ 253 ∧
    Memory.get (poked 1 255 ready).mem ready.sp.toNat = 255 ∧
    ({ ready with sp := 255 } : State).sp = 255 := by decide
theorem witness_Unwritten : blank.cell 6 = .unwritten ∧ (blank.setReg 0 1).cell 0 = .written 1 ∧
    (blank.setReg 0 1).fl = .unwritten := by decide
theorem witness_Unwritten_never : ∃ t, blank.run = .running ∧ exec (.pop 0) blank = .next t := ⟨_, rfl, runs (by decide)⟩
theorem witness_MemoryIsWritten : ∃ t, step (placed 4 [0x45, 0] ready) = .next t ∧
    Memory.get t.mem 0 ≠ Memory.get (placed 4 [0x45, 0] ready).mem 0 := ⟨_, rfl, by decide⟩
theorem witness_DataIsRead : ∃ t, Memory.get [(0, 9), (1, 254)] ready.sp.toNat = Memory.get ready.mem ready.sp.toNat ∧
    exec (.pop 0) ready = .next t := ⟨_, by decide, runs (by decide)⟩
theorem witness_FetchSees_push : ∃ t u, (placed 4 [0x45, 7] { ready with sp := 5 }).mem.wf = true ∧
    step (placed 4 [0x45, 7] { ready with sp := 5 }) = .next t ∧ t.run = .running ∧
    (placed 4 [0x45, 7] { ready with sp := 5 }).fetch = .instr (.push 7) [0] ∧
    step t = .next u ∧ ReachesWithoutStore t.sp.toNat t u ∧ (2 : Pc).toNat + 2 = t.sp.toNat :=
  ⟨nextOf (step (placed 4 [0x45, 7] { ready with sp := 5 })),
    nextOf (step (nextOf (step (placed 4 [0x45, 7] { ready with sp := 5 })))),
    by decide, runs (by decide), by decide, by decide, runs (by decide),
    .tail (.refl _) (runs (by decide)) (fun h => absurd h.1 (by decide)), by decide⟩
theorem witness_FetchSees_call : ∃ t, (placed 253 [0x50, 0] ready).mem.wf = true ∧
    step (placed 253 [0x50, 0] ready) = .next t ∧ t.run = .running ∧
    (placed 253 [0x50, 0] ready).fetch = .instr (.call 0) [0] ∧ ReachesWithoutStore t.sp.toNat t t :=
  ⟨_, by decide, runs (by decide), by decide, by decide, .refl _⟩
theorem witness_FrameOfWriters : ∃ t, Instr.add 7 0 ∈ [Instr.ldi 7 0, .add 7 0, .sub 7 0, .mul 7 0] ∧
    exec (.add 7 0) ready = .next t := ⟨_, by decide, rfl⟩
theorem witness_FrameOfReaders : ∃ t, Instr.cmp 7 0 ∈ [Instr.prn 7, .hlt, .cmp 7 0, .jeq 7, .jmp 7, .jne 7] ∧
    exec (.cmp 7 0) ready = .next t := ⟨_, by decide, rfl⟩
theorem witness_FrameOfPopRet : ∃ t u, exec (.pop 7) ready = .next t ∧ exec .ret ready = .next u := ⟨_, _, runs (by decide), runs (by decide)⟩
theorem witness_FrameOfPushCall : ∃ t u, Instr.call 7 ∈ [Instr.push 7, .call 7] ∧ exec (.call 7) ready = .next t ∧
    1 ≤ ready.sp.toNat ∧ exec (.push 0) { ready with sp := 0 } = .next u ∧
    ({ ready with sp := 0 } : State).sp.toNat = 0 := ⟨_, _, by decide, runs (by decide), by decide, runs (by decide), by decide⟩
theorem witness_Parameters : ∃ t, step (placed 4 [0x11] ready) = .next t := ⟨_, runs (by decide)⟩

end Sys2Proof.Tests
end

