-- ==== Sys2Proof/Proofs/Flags.lean ====
section
/-! SUPPORT. The flags register: CMP alone writes it (spec/10_state.md R40), and of its bits only E is read
(R41). -/

namespace Sys2Proof.Machine

/-! ## Only CMP writes FL -/

/-- A completed step, one that stays in RUNNING, has the effect of the instruction fetched. -/
theorem Effect.of_step {i : Instr} {rest : List Byte} {s t : State} (h : step s = .next t)
    (hf : s.fetch = .instr i rest) (hr : t.run = .running) : Effect i s t := by
  obtain ⟨-, ⟨j, rest', hj, -, he⟩ | ⟨_, _, _, _, _, rfl⟩ | ⟨_, _, rfl⟩⟩ := step_cases h
  · obtain ⟨rfl, -⟩ : j = i ∧ rest' = rest := by simpa [hj] using hf
    exact he
  · cases hr
  · cases hr

/-- A step that changes FL fetched a CMP: a fault changes the run state alone. -/
theorem fetch_cmp_of_step_fl_ne {s t : State} (h : step s = .next t) (hfl : t.fl ≠ s.fl) :
    ∃ a b rest, s.fetch = .instr (.cmp a b) rest := by
  obtain ⟨-, ⟨i, rest, hf, -, he⟩ | ⟨_, _, _, _, _, rfl⟩ | ⟨_, _, rfl⟩⟩ := step_cases h
  · obtain hkept | ⟨a, b, rfl⟩ := he.fl
    · exact absurd hkept hfl
    · exact ⟨a, b, rest, hf⟩
  · exact absurd rfl hfl
  · exact absurd rfl hfl

/-- A CMP leaves in FL one bit set and no more. -/
theorem Effect.cmp_fl {a b : Reg} {s t : State} (h : Effect (.cmp a b) s t) :
    ∃ f, t.fl = .written f ∧ flagsOneHot f = true := by
  obtain ⟨u, v, -, -, rfl⟩ := h
  exact ⟨compareFlags u v, rfl, compareFlags_oneHot u v⟩

/-- The three ways to have exactly one flag bit set. -/
theorem flagsOneHot_iff (f : Flags) : flagsOneHot f = true ↔
    (flagE f = true ∧ flagG f = false ∧ flagL f = false) ∨
    (flagE f = false ∧ flagG f = true ∧ flagL f = false) ∨
    (flagE f = false ∧ flagG f = false ∧ flagL f = true) := by
  unfold flagsOneHot flagsLegal
  generalize flagE f = e, flagG f = g, flagL f = l
  revert e g l
  decide

/-- Settles O12: the inversion of a step gives the CMP behind a changed FL, and the comparison leaves one
bit. -/
theorem onlyCmpWritesFlags : Obligations.OnlyCmpWritesFlags := by
  intro s t h
  refine ⟨fetch_cmp_of_step_fl_ne h, fun a b rest hf hr => ?_⟩
  obtain ⟨f, hfl, hone⟩ := (Effect.of_step h hf hr).cmp_fl
  exact ⟨f, hfl, (flagsOneHot_iff f).mp hone⟩

/-! ## Only E is read -/

/-- Two states that differ in FL at most. -/
def SameButFl (t u : State) : Prop := t = { u with fl := t.fl }

@[simp] theorem State.setReg_withFl (s : State) (c : RegCell Flags) (r : Reg) (v : Byte) :
    ({ s with fl := c } : State).setReg r v = { s.setReg r v with fl := c } := by
  unfold State.setReg; split <;> rfl

theorem ArithEffect.withFl {sel : AluSel} {a b : Reg} {s t : State} (c : RegCell Flags)
    (h : ArithEffect sel a b s t) : ArithEffect sel a b { s with fl := c } { t with fl := c } := by
  obtain ⟨u, v, hu, hv, hc, rfl⟩ := h
  exact ⟨u, v, hu, hv, hc, by rw [State.setReg_withFl s c]; rfl⟩

/-- An instruction other than JEQ and JNE has the same effect whatever FL holds: CMP replaces it, every other
carries it along. -/
theorem Effect.withFl {i : Instr} {s t : State} (c : RegCell Flags) (hi : ∀ a, i ≠ .jeq a ∧ i ≠ .jne a)
    (h : Effect i s t) : ∃ u, Effect i { s with fl := c } u ∧ SameButFl t u := by
  cases i with
  | ldi a imm => subst h; exact ⟨_, rfl, by rw [State.setReg_withFl s c]; rfl⟩
  | prn a => obtain ⟨v, hv, rfl⟩ := h; exact ⟨_, ⟨v, hv, rfl⟩, rfl⟩
  | hlt => subst h; exact ⟨_, rfl, rfl⟩
  | add a b => exact ⟨_, ArithEffect.withFl c h, rfl⟩
  | sub a b => exact ⟨_, ArithEffect.withFl c h, rfl⟩
  | mul a b => exact ⟨_, ArithEffect.withFl c h, rfl⟩
  | push a => obtain ⟨v, hv, h0, rfl⟩ := h; exact ⟨_, ⟨v, hv, h0, rfl⟩, rfl⟩
  | pop a => obtain ⟨h1, rfl⟩ := h; exact ⟨_, ⟨h1, rfl⟩, by rw [State.setReg_withFl s c]; rfl⟩
  | call a => obtain ⟨v, hv, h1, h0, rfl⟩ := h; exact ⟨_, ⟨v, hv, h1, h0, rfl⟩, rfl⟩
  | ret => obtain ⟨h1, rfl⟩ := h; exact ⟨_, ⟨h1, rfl⟩, rfl⟩
  | cmp a b => obtain ⟨u, v, hu, hv, rfl⟩ := h; exact ⟨_, ⟨u, v, hu, hv, rfl⟩, rfl⟩
  | jmp a => obtain ⟨v, hv, rfl⟩ := h; exact ⟨_, ⟨v, hv, rfl⟩, rfl⟩
  | jeq a => exact absurd rfl (hi a).1
  | jne a => exact absurd rfl (hi a).2

/-- No fault of an instruction other than JEQ and JNE depends on FL. -/
theorem Trap.withFl {i : Instr} {s : State} {r : HaltRecord} (c : RegCell Flags)
    (hi : ∀ a, i ≠ .jeq a ∧ i ≠ .jne a) (h : Trap i s r) : Trap i { s with fl := c } r := by
  cases i with
  | jeq a => exact absurd rfl (hi a).1
  | jne a => exact absurd rfl (hi a).2
  | _ => exact h

/-- Every instruction other than JEQ and JNE ignores FL altogether (R41). -/
theorem exec_withFl {i : Instr} {s t : State} (c : RegCell Flags) (hi : ∀ a, i ≠ .jeq a ∧ i ≠ .jne a)
    (h : exec i s = .next t) : ∃ u, exec i { s with fl := c } = .next u ∧ SameButFl t u := by
  obtain he | ⟨r, hT, rfl⟩ := exec_next h
  · obtain ⟨u, hu, hs⟩ := he.withFl c hi
    exact ⟨u, exec_of_effect hu, hs⟩
  · exact ⟨_, exec_of_trap (hT.withFl c hi), rfl⟩

/-- JEQ with both its operands written (R212). -/
theorem exec_jeq_written {s : State} {a : Reg} {v : Byte} (f : Flags) (hv : s.cell a = .written v) :
    exec (.jeq a) { s with fl := .written f } =
      .next { s with fl := .written f, pc := if flagE f then v.setWidth 9 else s.pc + 2 } :=
  exec_of_effect ⟨v, f, hv, rfl, by cases flagE f <;> rfl⟩

/-- JNE with both its operands written (R214). -/
theorem exec_jne_written {s : State} {a : Reg} {v : Byte} (f : Flags) (hv : s.cell a = .written v) :
    exec (.jne a) { s with fl := .written f } =
      .next { s with fl := .written f, pc := if flagE f then s.pc + 2 else v.setWidth 9 } :=
  exec_of_effect ⟨v, f, hv, rfl, by cases flagE f <;> rfl⟩

/-- A branch on an unwritten register faults before it looks at FL (D16). -/
theorem exec_branch_unwritten {i : Instr} {s : State} {a : Reg} (c : RegCell Flags)
    (hi : i = .jeq a ∨ i = .jne a) (ha : s.cell a = .unwritten) :
    exec i { s with fl := c } = raise (.unwrittenRead (.reg a) s.pc) { s with fl := c } := by
  obtain rfl | rfl := hi <;> exact exec_of_trap (.inl ⟨ha, rfl⟩)

/-- A branch under two flag registers that agree on E. -/
theorem exec_branch_flagE_congr {i : Instr} {s t : State} {a : Reg} {f g : Flags} (hE : flagE f = flagE g)
    (hi : i = .jeq a ∨ i = .jne a) (h : exec i { s with fl := .written f } = .next t) :
    ∃ u, exec i { s with fl := .written g } = .next u ∧ SameButFl t u := by
  cases ha : s.cell a with
  | unwritten =>
    rw [exec_branch_unwritten _ hi ha] at h ⊢
    exact ⟨_, rfl, by rw [raise_next h]; rfl⟩
  | written v =>
    obtain rfl | rfl := hi
    · rw [exec_jeq_written _ ha, next_inj] at h
      exact ⟨_, exec_jeq_written g ha, by rw [← h, hE]; rfl⟩
    · rw [exec_jne_written _ ha, next_inj] at h
      exact ⟨_, exec_jne_written g ha, by rw [← h, hE]; rfl⟩

/-- Two flag registers that agree on E give the same next state but for FL (R41). -/
theorem exec_flagE_congr {i : Instr} {s t : State} {f g : Flags} (hE : flagE f = flagE g)
    (h : exec i { s with fl := .written f } = .next t) :
    ∃ u, exec i { s with fl := .written g } = .next u ∧ SameButFl t u := by
  by_cases hi : ∃ a, i = .jeq a ∨ i = .jne a
  · obtain ⟨a, hi⟩ := hi
    exact exec_branch_flagE_congr hE hi h
  · exact exec_withFl (s := { s with fl := .written f }) (.written g) (by simpa using hi) h

/-- Settles O14: the branches see FL through E alone, and every other instruction carries FL along or, as CMP
does, replaces it. -/
theorem onlyEqualIsRead : Obligations.OnlyEqualIsRead :=
  ⟨fun _ _ _ _ _ hE h => exec_flagE_congr hE h, fun _ _ _ c hi h => exec_withFl c hi h,
    fun _ _ _ f hv => ⟨exec_jeq_written f hv, exec_jne_written f hv⟩⟩

end Sys2Proof.Machine
end


-- ==== Sys2Proof/Proofs/Encoding.lean ====
section
/-! SUPPORT. The encoder: how many bytes it emits (spec/30_encoding.md R98). -/

namespace Sys2Proof

/-- The operand bytes and the opcode byte make up the format's width (R91, R98). -/
theorem Instr.length_operandBytes (i : Instr) : i.operandBytes.length + 1 = i.width := by
  cases i <;> rfl

@[simp] theorem length_encode (o : OpcodeMap) (i : Instr) : (encode o i).length = i.width :=
  i.length_operandBytes

/-- Settles O20: an encoding is as long as its instruction's format is wide, and each constructor's format
has the table's width. -/
theorem widthOfEveryInstruction : Obligations.WidthOfEveryInstruction := by
  intro o i
  rw [length_encode]
  cases i <;> rfl

end Sys2Proof
end


-- ==== Sys2Proof/Proofs/Arithmetic.lean ====
section
/-! SUPPORT. The ALU on each selector (spec/42_alu_arithmetic.md R150), and ADD, SUB, MUL of a register with
itself (R153). -/

namespace Sys2Proof.Machine

/-! ## The ALU -/

theorem alu_cmp_of_eq {u v : Byte} (h : u.toNat = v.toNat) : alu .cmp u v = some 0b001 := by
  rw [alu, compareFlags, if_pos h]; rfl

theorem alu_cmp_of_gt {u v : Byte} (h : u.toNat > v.toNat) : alu .cmp u v = some 0b010 := by
  rw [alu, compareFlags, if_neg (by omega), if_pos h]; rfl

theorem alu_cmp_of_lt {u v : Byte} (h : u.toNat < v.toNat) : alu .cmp u v = some 0b100 := by
  rw [alu, compareFlags, if_neg (by omega), if_neg (by omega)]; rfl

theorem withAlu_other (id u v : Byte) (s : State) (k : Int → Result) :
    withAlu (.other id) u v s k = raise (.unsupportedOperation (.other id)) s := rfl

/-- Settles O34: the arithmetic selectors compute by definition, CMP by the order of the two values, and any
other selector raises. -/
theorem aluComputesExactly : Obligations.AluComputesExactly := fun u v =>
  ⟨rfl, rfl, rfl, alu_cmp_of_eq, alu_cmp_of_gt, alu_cmp_of_lt, fun id s k => withAlu_other id u v s k⟩

/-! ## A register with itself -/

theorem arithResult_add_self (u : Byte) : arithResult .add u u = (2 * u.toNat : Nat) := by
  change (u.toNat : Int) + u.toNat = _
  omega

theorem arithResult_sub_self (u : Byte) : arithResult .sub u u = (0 : Nat) := Int.sub_self _

theorem arithResult_mul_self (u : Byte) : arithResult .mul u u = (u.toNat ^ 2 : Nat) := by
  change (u.toNat : Int) * u.toNat = _
  rw [Nat.pow_two, Nat.cast_mul]

/-- R151 for an exact result that is not negative: it is stored modulo 256 under `wrap`, and as it is when it
fits a byte. -/
theorem ArithEffect.exists_of_natCast {sel : AluSel} {a b : Reg} {s : State} {u v : Byte} {n : Nat}
    (hu : s.cell a = .written u) (hv : s.cell b = .written v) (hn : arithResult sel u v = n)
    (hc : s.config.arith = .wrap ∨ n ≤ 255) :
    ∃ t, ArithEffect sel a b s t ∧ t.cell a = .written (BitVec.ofNat 8 n) := by
  refine ⟨_, ⟨u, v, hu, hv, hc.imp_right fun _ => by omega, rfl⟩, ?_⟩
  simp [hn]

/-- Settles O39: the effect's two operands are both the old value of the register, so the exact result is its
double, 0 or its square, whatever is written afterwards. -/
theorem operandsAreReadBeforeTheWrite : Obligations.OperandsAreReadBeforeTheWrite := by
  intro s a u hu
  refine ⟨?_, fun hc => ?_, fun hc => ?_⟩
  · obtain ⟨t, he, hw⟩ := ArithEffect.exists_of_natCast hu hu (arithResult_sub_self u) (.inr (by omega))
    exact ⟨t, exec_of_effect he, hw⟩
  · obtain ⟨t, he, hw⟩ := ArithEffect.exists_of_natCast hu hu (arithResult_add_self u) hc
    exact ⟨t, exec_of_effect he, hw⟩
  · obtain ⟨t, he, hw⟩ := ArithEffect.exists_of_natCast hu hu (arithResult_mul_self u) hc
    exact ⟨t, exec_of_effect he, hw⟩

end Sys2Proof.Machine
end


-- ==== Sys2Proof/Proofs/Stack.lean ====
section
/-! SUPPORT. PUSH and POP of a register other than SP, one after the other (spec/43_stack.md R173 to R175). -/

namespace Sys2Proof.Machine

/-- An execution that stays in RUNNING has the instruction's effect: a fault halts. -/
theorem Effect.of_exec_running {i : Instr} {s t : State} (h : exec i s = .next t) (hr : t.run = .running) :
    Effect i s t := by
  obtain he | ⟨_, -, rfl⟩ := exec_next h
  · exact he
  · cases hr

/-- What a completed PUSH does to SP and memory, for a register other than SP (R173). -/
theorem Effect.push_sp_mem {a : Reg} {s t : State} (h : Effect (.push a) s t) (ha : a ≠ Reg.sp) :
    ∃ v, s.cell a = .written v ∧ t.sp = s.sp - 1 ∧ t.mem = Memory.put s.mem (s.sp - 1).toNat v := by
  obtain ⟨v, hv, -, rfl⟩ := h
  exact ⟨v, hv, rfl, by simp [afterPush, ha]⟩

/-- What a completed POP does to its register, SP and memory, for a register other than SP (R174). -/
theorem Effect.pop_cell_sp_mem {b : Reg} {s t : State} (h : Effect (.pop b) s t) (hb : b ≠ Reg.sp) :
    t.cell b = .written s.top ∧ t.sp = s.sp + 1 ∧ t.mem = s.mem := by
  obtain ⟨-, rfl⟩ := h
  have hsp : popNewSp b s = (s.sp.toNat + 1 : Nat) := by simp [popNewSp, hb]
  refine ⟨(State.cell_withSp (s.setReg b s.top) _ b).trans (by simp [hb]), ?_, State.setReg_mem s b s.top⟩
  change BitVec.ofInt 8 (popNewSp b s) = s.sp + 1#8
  rw [hsp, BitVec.ofInt_natCast, BitVec.ofNat_add, BitVec.ofNat_toNat, BitVec.setWidth_eq]

/-- Settles O48: the PUSH stores the register's value at the SP it leaves, which is where the POP reads, and
the POP stores nothing. -/
theorem pushThenPopRoundTrips : Obligations.PushThenPopRoundTrips := by
  intro s t u a b hwf _ ha hb hpush ht hpop hu
  have hE := Effect.of_exec_running hpush ht
  obtain ⟨v, hv, htsp, htmem⟩ := hE.push_sp_mem ha
  obtain ⟨hub, husp, humem⟩ := (Effect.of_exec_running hpop hu).pop_cell_sp_mem hb
  have hbyte : Memory.get t.mem (s.sp - 1).toNat = v := by rw [htmem, Memory.get_put hwf, if_pos rfl]
  have htop : t.top = v := by rw [State.top, State.byteAt, htsp, hbyte]
  have hslot : s.sp.toNat - 1 = (s.sp - 1).toNat := by rw [hE.slot (.inl rfl), Nat.add_sub_cancel]
  exact ⟨v, hv, by rw [hub, htop], by rw [husp, htsp, BitVec.sub_add_cancel], by rw [humem, hslot, hbyte]⟩

end Sys2Proof.Machine
end


-- ==== Sys2Proof/Proofs/Subroutine.lean ====
section
/-! SUPPORT. CALL and the RET that returns from it (spec/44_subroutine.md R190 to R192). -/

namespace Sys2Proof.Machine

/-- A completed CALL leaves its return address, which fits a byte, on top of the stack (R190). -/
theorem Effect.call_top {a : Reg} {s t : State} (h : Effect (.call a) s t) (hwf : s.mem.wf = true) :
    t.sp = s.sp - 1 ∧ t.top.toNat = s.pc.toNat + 2 := by
  obtain ⟨v, -, hra, -, rfl⟩ := h
  refine ⟨rfl, ?_⟩
  rw [State.top, State.byteAt, State.jump_mem, State.jump_sp, State.pushAt_mem, State.pushAt_sp,
    Memory.get_put hwf, if_pos rfl, BitVec.toNat_ofNat, Nat.mod_eq_of_lt (by omega)]

/-- What a completed RET does to the program counter, SP and the run state (R191). -/
theorem Effect.ret_pc_sp_run {s t : State} (h : Effect .ret s t) :
    t.pc.toNat = s.top.toNat ∧ t.sp = s.sp + 1 ∧ t.run = s.run := by
  obtain ⟨-, rfl⟩ := h
  exact ⟨BitVec.toNat_setWidth_of_le (by decide), by simp [BitVec.ofNat_add], rfl⟩

/-- RET's one fault is an SP of 255, so below that it completes (R191). -/
theorem Effect.of_exec_ret {s t : State} (h : exec .ret s = .next t) (hsp : s.sp.toNat + 1 ≤ 255) :
    Effect .ret s t := by
  obtain he | ⟨_, ⟨hout, -⟩, -⟩ := exec_next h
  · exact he
  · omega

/-- Settles O49: the CALL leaves SP one lower without a wrap, so the RET completes, and the byte it pops is
the return address. -/
theorem callThenRetResumes : Obligations.CallThenRetResumes := by
  intro s t u w a hwf _ hcall ht husp hbyte hu hret
  have hE := Effect.of_exec_running hcall ht
  obtain ⟨htsp, hra⟩ := hE.call_top hwf
  have hslot : s.sp.toNat = u.sp.toNat + 1 := by rw [husp, htsp]; exact hE.slot (.inr rfl)
  have htop : u.top = t.top := by rw [State.top, State.byteAt, husp, hbyte]; rfl
  obtain ⟨hpc, hwsp, hrun⟩ := (Effect.of_exec_ret hret (by omega)).ret_pc_sp_run
  exact ⟨by rw [hrun, hu], by rw [hpc, htop, hra], by rw [hwsp, husp, htsp, BitVec.sub_add_cancel]⟩

end Sys2Proof.Machine
end


-- ==== Sys2Proof/Proofs/Exceptions.lean ====
section
/-! SUPPORT. How a step can end, and why never in UNSUPPORTED_OPERATION (spec/60_exceptions.md R240, R241,
R248). -/

namespace Sys2Proof.Machine

/-- An instruction's own effect keeps the run state, or is HLT's and halts with HALT_OK (R241). -/
theorem Effect.run_kept_or_haltOk {i : Instr} {s t : State} (h : Effect i s t) :
    t.run = s.run ∨ t.run = .halted .haltOk := by
  obtain hkept | rfl := h.run
  · exact .inl hkept
  · obtain rfl := h
    exact .inr rfl

/-- The run state after a step: still RUNNING, halted with HALT_OK, or halted with a record that names the
address of the step (R241). -/
theorem step_run {s t : State} (h : step s = .next t) :
    t.run = .running ∨ t.run = .halted .haltOk ∨ ∃ r, recordPc r = some s.pc ∧ t.run = .halted r := by
  obtain ⟨hr, ⟨i, rest, -, -, he⟩ | ⟨r, -, hpc, rfl⟩⟩ := step_effect_or_fault h
  · obtain hkept | hok := he.run_kept_or_haltOk
    · exact .inl (hkept.trans hr)
    · exact .inr (.inl hok)
  · exact .inr (.inr ⟨r, hpc, rfl⟩)

/-- Settles O17: an UNSUPPORTED_OPERATION record is not HALT_OK and names no address (R240), while every fault
a step can raise names its own, since ADD, SUB, MUL and CMP give the ALU a selector it knows. -/
theorem unsupportedOperationIsUnreachable : Obligations.UnsupportedOperationIsUnreachable := by
  intro s t sel h hu
  obtain hrun | hok | ⟨r, hpc, hr⟩ := step_run h
  · cases hrun.symm.trans hu
  · cases hok.symm.trans hu
  · obtain rfl : r = .unsupportedOperation sel := by simpa using hr.symm.trans hu
    cases hpc

end Sys2Proof.Machine
end

section
/-! SUPPORT. Decoding and encoding are inverse, instruction by instruction, and a fetch reads exactly the
encoding that stands at `pc` (spec/30_encoding.md R90 to R120). -/

namespace Sys2Proof

/-! ## The operand decoders by format -/

/-- An instruction has its opcode byte and at most two operand bytes (R91). -/
theorem Format.one_le_width_le_three (f : Format) : 1 ≤ f.width ∧ f.width ≤ 3 := by
  cases f <;> decide

/-- Format N has no operand bytes. -/
theorem decodeOperands_of_format_N {m : Mnemonic} (h : m.format = .N) :
    ∃ i : Instr, i.operandBytes = [] ∧ ∀ bs, decodeOperands bs m = .instr i bs := by
  cases m <;> cases h <;> exact ⟨_, rfl, fun _ => rfl⟩

/-- Format R has one register byte. -/
theorem decodeOperands_of_format_R {m : Mnemonic} (h : m.format = .R) :
    ∃ mk : Reg → Instr, (∀ a, (mk a).operandBytes = [byteOfReg a]) ∧
      ∀ bs, decodeOperands bs m = decodeR mk bs := by
  cases m <;> cases h <;> exact ⟨_, fun _ => rfl, fun _ => rfl⟩

/-- Format RR has two register bytes. -/
theorem decodeOperands_of_format_RR {m : Mnemonic} (h : m.format = .RR) :
    ∃ mk : Reg → Reg → Instr, (∀ a b, (mk a b).operandBytes = [byteOfReg a, byteOfReg b]) ∧
      ∀ bs, decodeOperands bs m = decodeRR mk bs := by
  cases m <;> cases h <;> exact ⟨_, fun _ _ => rfl, fun _ => rfl⟩

/-- Format RI has a register byte and an immediate byte. -/
theorem decodeOperands_of_format_RI {m : Mnemonic} (h : m.format = .RI) :
    ∃ mk : Reg → Byte → Instr, (∀ a v, (mk a v).operandBytes = [byteOfReg a, v]) ∧
      ∀ bs, decodeOperands bs m = decodeRI mk bs := by
  cases m <;> cases h
  exact ⟨_, fun _ _ => rfl, fun _ => rfl⟩

theorem decodeR_instr {mk : Reg → Instr} {bs rest : List Byte} {i : Instr}
    (h : decodeR mk bs = .instr i rest) : ∃ a, i = mk a ∧ bs = byteOfReg a :: rest := by
  unfold decodeR at h
  split at h
  · cases h
  · obtain ⟨a, rfl, ha⟩ := withRegByte_instr h
    cases ha
    exact ⟨a, rfl, rfl⟩

theorem decodeRR_instr {mk : Reg → Reg → Instr} {bs rest : List Byte} {i : Instr}
    (h : decodeRR mk bs = .instr i rest) :
    ∃ a b, i = mk a b ∧ bs = byteOfReg a :: byteOfReg b :: rest := by
  unfold decodeRR at h
  split at h
  · cases h
  · cases h
  · obtain ⟨a, rfl, ha⟩ := withRegByte_instr h
    obtain ⟨b, rfl, hb⟩ := withRegByte_instr ha
    cases hb
    exact ⟨a, b, rfl, rfl⟩

theorem decodeRI_instr {mk : Reg → Byte → Instr} {bs rest : List Byte} {i : Instr}
    (h : decodeRI mk bs = .instr i rest) : ∃ a v, i = mk a v ∧ bs = byteOfReg a :: v :: rest := by
  unfold decodeRI at h
  split at h
  · cases h
  · cases h
  · obtain ⟨a, rfl, ha⟩ := withRegByte_instr h
    cases ha
    exact ⟨a, _, rfl, rfl⟩

/-- The bytes operands were decoded from are the instruction's operand bytes: no bit of them is ignored
(R92, R100). -/
theorem operandBytes_of_decodeOperands {bs rest : List Byte} {m : Mnemonic} {i : Instr}
    (h : decodeOperands bs m = .instr i rest) : bs = i.operandBytes ++ rest := by
  cases hf : m.format with
  | N =>
    obtain ⟨j, hj, hd⟩ := decodeOperands_of_format_N hf
    obtain ⟨rfl, rfl⟩ : j = i ∧ bs = rest := by simpa [hd] using h
    rw [hj, List.nil_append]
  | R =>
    obtain ⟨mk, hmk, hd⟩ := decodeOperands_of_format_R hf
    obtain ⟨a, rfl, rfl⟩ := decodeR_instr (hd bs ▸ h)
    rw [hmk]; rfl
  | RR =>
    obtain ⟨mk, hmk, hd⟩ := decodeOperands_of_format_RR hf
    obtain ⟨a, b, rfl, rfl⟩ := decodeRR_instr (hd bs ▸ h)
    rw [hmk]; rfl
  | RI =>
    obtain ⟨mk, hmk, hd⟩ := decodeOperands_of_format_RI hf
    obtain ⟨a, v, rfl, rfl⟩ := decodeRI_instr (hd bs ▸ h)
    rw [hmk]; rfl

theorem decodeOperands_operandBytes (i : Instr) (rest : List Byte) :
    decodeOperands (i.operandBytes ++ rest) i.mnemonic = .instr i rest := by
  cases i <;> simp [Instr.operandBytes, Instr.mnemonic, decodeOperands, decodeR, decodeRR, decodeRI]

/-! ## Decoding and encoding -/

/-- What decodes to `i`: its encoding, under an OPCODE that looks its opcode byte up as its own row. -/
theorem decode_eq_instr_iff {o : OpcodeMap} {bs rest : List Byte} {i : Instr} :
    decode o bs = .instr i rest ↔
      o.dispatch (o.byteOf i.mnemonic) = some i.mnemonic ∧ bs = encode o i ++ rest := by
  constructor
  · intro h
    cases bs with
    | nil => cases h
    | cons op bs =>
      simp only [decode] at h
      split at h
      · cases h
      · rename_i m hm
        obtain rfl := decodeOperands_mnemonic h
        rw [OpcodeMap.byteOf_of_dispatch hm]
        refine ⟨hm, ?_⟩
        rw [encode, OpcodeMap.byteOf_of_dispatch hm, operandBytes_of_decodeOperands h]; rfl
  · rintro ⟨hd, rfl⟩
    simp only [encode, List.cons_append, decode, hd, decodeOperands_operandBytes]

/-- A well-formed instruction's opcode byte is looked up as its own row. -/
theorem Instr.dispatch_of_wf {o : OpcodeMap} {i : Instr} (h : i.wf o = true) :
    o.dispatch (o.byteOf i.mnemonic) = some i.mnemonic :=
  OpcodeMap.dispatch_byteOf (Instr.wf_iff.mp h)

/-- Settles O18: the dispatch finds the instruction's own row, whose operand decoder reads the operand bytes
back. -/
theorem decodeAfterEncode : Obligations.DecodeAfterEncode :=
  ⟨fun _ _ _ h => decode_eq_instr_iff.mpr ⟨Instr.dispatch_of_wf h, rfl⟩,
    fun o i h => Laws.WellFormed.of_mnemonic i o h⟩

/-- Settles O19: the bytes a decoding consumed are the opcode byte of its row and its operand bytes. -/
theorem encodeAfterDecode : Obligations.EncodeAfterDecode :=
  fun _ _ _ _ h => (decode_eq_instr_iff.mp h).2.symm

/-- Settles O21: each word, written out in bits, is decoded by evaluation. -/
theorem wordsWrittenOutDecode : Obligations.WordsWrittenOutDecode :=
  ⟨rfl, rfl, rfl, rfl, rfl, rfl, rfl⟩

theorem OpcodeMap.dispatch_isSome_iff {o : OpcodeMap} {op : Byte} :
    (o.dispatch op).isSome = true ↔ op ∈ Mnemonic.all.map o.byteOf := by
  simp [OpcodeMap.dispatch]

/-- Settles O22: a byte is legal when it is some row's, and the fourteen rows hold the fourteen bytes listed,
in another order. -/
theorem legalOpcodeBytes : Obligations.LegalOpcodeBytes := by
  intro b
  rw [OpcodeMap.dispatch_isSome_iff]
  refine List.Perm.mem_iff ?_
  decide

/-! ## Fetch -/

namespace Machine

/-- A fetch reaches as far as memory does, and no further than asked. -/
theorem length_bytesFrom (m : Memory) (n a : Nat) : (Memory.bytesFrom m n a).length = min n (256 - a) := by
  induction n generalizing a with
  | zero => simp [Memory.bytesFrom]
  | succ n ih =>
    rw [Memory.bytesFrom]
    split
    · rw [List.length_cons, ih]; omega
    · rw [List.length_nil]; omega

/-- The bytes at the head of a fetch stand in memory at the addresses it starts from. -/
theorem bytesAt_of_bytesFrom {m : Memory} {n a : Nat} {bs rest : List Byte}
    (h : Memory.bytesFrom m n a = bs ++ rest) : BytesAt m a bs := by
  intro k hk
  have hlen : (bs ++ rest).length = min n (256 - a) := by rw [← h, length_bytesFrom]
  rw [List.length_append] at hlen
  have hget := getElem?_bytesFrom (m := m) (n := n) (a := a) (k := k) (by omega) (by omega)
  rw [h, List.getElem?_append_left hk, List.getElem?_eq_getElem hk] at hget
  exact (Option.some.inj hget).symm

/-- What a fetch needs to read `i`: the dispatch finds its row, it lies inside memory, and its encoding stands
at `pc`. -/
theorem exists_fetch_eq_instr_iff {s : State} {i : Instr} : (∃ rest, s.fetch = .instr i rest) ↔
    s.config.opcode.dispatch (s.config.opcode.byteOf i.mnemonic) = some i.mnemonic ∧
    s.pc.toNat + i.width ≤ 256 ∧ BytesAt s.mem s.pc.toNat (encode s.config.opcode i) := by
  obtain ⟨hw1, hw3⟩ : 1 ≤ i.width ∧ i.width ≤ 3 := i.mnemonic.format.one_le_width_le_three
  constructor
  · rintro ⟨rest, h⟩
    obtain ⟨hd, hbs⟩ := decode_eq_instr_iff.mp h
    have hlen : (encode s.config.opcode i ++ rest).length = min 3 (256 - s.pc.toNat) := by
      rw [← hbs, State.fetchBytes, length_bytesFrom]
    rw [List.length_append, length_encode] at hlen
    exact ⟨hd, by omega, bytesAt_of_bytesFrom hbs⟩
  · rintro ⟨hd, hpc, hbs⟩
    obtain ⟨rest, hr⟩ := bytesFrom_prefix (n := 3) (by simpa using hw3) (by simpa using hpc) hbs
    exact ⟨rest, decode_eq_instr_iff.mpr ⟨hd, hr⟩⟩

/-- A fetched instruction lies inside memory. -/
theorem pc_add_width_le {s : State} {i : Instr} {rest : List Byte} (h : s.fetch = .instr i rest) :
    s.pc.toNat + i.width ≤ 256 :=
  (exists_fetch_eq_instr_iff.mp ⟨rest, h⟩).2.1

/-- A fetched instruction's opcode byte stands at `pc`. -/
theorem byteOf_mnemonic_of_fetch {s : State} {i : Instr} {rest : List Byte} (h : s.fetch = .instr i rest) :
    Memory.get s.mem s.pc.toNat = s.config.opcode.byteOf i.mnemonic :=
  (exists_fetch_eq_instr_iff.mp ⟨rest, h⟩).2.2 0 (by simp [encode])

theorem step_of_fetch_instr {s : State} {i : Instr} {rest : List Byte} (hr : s.run = .running)
    (h : s.fetch = .instr i rest) : step s = exec i s := by
  unfold step; rw [hr, h]

theorem step_of_fetch_rejected {s : State} {e : DecodeError} (hr : s.run = .running)
    (h : s.fetch = .rejected e) : step s = raise (recordOf e s.pc) s := by
  unfold step; rw [hr, h]

/-- Settles O23: this is the step's own case for a fetch that decodes. -/
theorem stepRunsTheDecodedInstruction : Obligations.StepRunsTheDecodedInstruction :=
  fun _ _ _ hr h => step_of_fetch_instr hr h

/-- Settles O24: the encoding at `pc` is what the fetch reads. -/
theorem encodedInstructionAtPcIsExecuted : Obligations.EncodedInstructionAtPcIsExecuted := by
  intro s i hr hwf hpc hbs
  obtain ⟨rest, hf⟩ := exists_fetch_eq_instr_iff.mpr ⟨Instr.dispatch_of_wf hwf, hpc, hbs⟩
  exact step_of_fetch_instr hr hf

/-- Settles O25: the conditions of a fetch speak of the bytes of the encoding alone, as many as the width. -/
theorem fetchReadsExactlyTheInstruction : Obligations.FetchReadsExactlyTheInstruction := by
  intro s m i rest h hm
  obtain ⟨hd, hpc, hbs⟩ := exists_fetch_eq_instr_iff.mp ⟨rest, h⟩
  refine exists_fetch_eq_instr_iff.mpr ⟨hd, hpc, fun k hk => ?_⟩
  exact (hm k (by simpa using hk)).trans (hbs k hk)

end Machine

end Sys2Proof
end

section
/-! SUPPORT. What a refused fetch raises: an illegal opcode, a byte past the top of memory, a register byte
above 7 (spec/30_encoding.md R111 to R119). -/

namespace Sys2Proof

/-! ## Refused operands -/

theorem Format.one_lt_width {f : Format} (h : f ≠ .N) : 1 < f.width := by
  cases f with
  | N => exact absurd rfl h
  | R | RR | RI => decide

/-- Why operand bytes are refused under a format (R119, checks 3 and 4): the first byte that is missing, then
register byte `a`, then register byte `b`. -/
def OperandRefusal (f : Format) (bs : List Byte) (e : DecodeError) : Prop :=
  (bs.length + 1 < f.width ∧ e = .missingOperand (bs.length + 1)) ∨
  (f.width ≤ bs.length + 1 ∧ f ≠ .N ∧ ∃ a ∈ bs[0]?, 7 < a.toNat ∧ e = .invalidRegister a) ∨
  (f = .RR ∧ ∃ a ∈ bs[0]?, ∃ b ∈ bs[1]?, a.toNat ≤ 7 ∧ 7 < b.toNat ∧ e = .invalidRegister b)

/-- A register byte is refused when it is above 7 (R92); else the continuation answers. -/
theorem withRegByte_eq_rejected_iff {v : Byte} {k : Reg → Decoded} {e : DecodeError} :
    withRegByte v k = .rejected e ↔
      (7 < v.toNat ∧ e = .invalidRegister v) ∨ ∃ h : v.toNat < 8, k ⟨v.toNat, h⟩ = .rejected e := by
  by_cases hv : 7 < v.toNat
  · rw [withRegByte_bad hv]
    simp [hv, show ¬ v.toNat < 8 by omega, eq_comm]
  · simp [withRegByte, regOfByte, hv, show v.toNat < 8 by omega]

theorem decodeR_eq_rejected_iff {mk : Reg → Instr} {bs : List Byte} {e : DecodeError} :
    decodeR mk bs = .rejected e ↔ OperandRefusal .R bs e := by
  match bs with
  | [] => simp [decodeR, OperandRefusal, Format.width, eq_comm]
  | a :: rest => simp [decodeR, withRegByte_eq_rejected_iff, OperandRefusal, Format.width]

theorem decodeRR_eq_rejected_iff {mk : Reg → Reg → Instr} {bs : List Byte} {e : DecodeError} :
    decodeRR mk bs = .rejected e ↔ OperandRefusal .RR bs e := by
  match bs with
  | [] => simp [decodeRR, OperandRefusal, Format.width, eq_comm]
  | [_] => simp [decodeRR, OperandRefusal, Format.width, eq_comm]
  | a :: b :: rest => 
    simp [decodeRR, withRegByte_eq_rejected_iff, OperandRefusal, Format.width, Nat.lt_succ_iff, and_left_comm]

theorem decodeRI_eq_rejected_iff {mk : Reg → Byte → Instr} {bs : List Byte} {e : DecodeError} :
    decodeRI mk bs = .rejected e ↔ OperandRefusal .RI bs e := by
  match bs with
  | [] => simp [decodeRI, OperandRefusal, Format.width, eq_comm]
  | [_] => simp [decodeRI, OperandRefusal, Format.width, eq_comm]
  | a :: b :: rest => simp [decodeRI, withRegByte_eq_rejected_iff, OperandRefusal, Format.width]

/-- Operand bytes are refused exactly for the reasons of their format. -/
theorem decodeOperands_eq_rejected_iff {bs : List Byte} {m : Mnemonic} {e : DecodeError} :
    decodeOperands bs m = .rejected e ↔ OperandRefusal m.format bs e := by
  cases hf : m.format with
  | N =>
    obtain ⟨i, -, hd⟩ := decodeOperands_of_format_N hf
    simp [hd, OperandRefusal, Format.width]
  | R =>
    obtain ⟨mk, -, hd⟩ := decodeOperands_of_format_R hf
    rw [hd, decodeR_eq_rejected_iff]
  | RR =>
    obtain ⟨mk, -, hd⟩ := decodeOperands_of_format_RR hf
    rw [hd, decodeRR_eq_rejected_iff]
  | RI =>
    obtain ⟨mk, -, hd⟩ := decodeOperands_of_format_RI hf
    rw [hd, decodeRI_eq_rejected_iff]

/-! ## A refused fetch -/

namespace Machine

/-- The operand bytes a fetch may look at, in the memory after `pc`. -/
def State.operandBytes (s : State) : List Byte := Memory.bytesFrom s.mem 2 (s.pc.toNat + 1)

theorem State.length_operandBytes (s : State) : s.operandBytes.length = min 2 (256 - (s.pc.toNat + 1)) :=
  length_bytesFrom s.mem 2 (s.pc.toNat + 1)

/-- The operand byte `k + 1` after the opcode, as far as memory reaches. -/
theorem State.getElem?_operandBytes {s : State} {k : Nat} (hk : k < 2) (h : s.pc.toNat + 1 + k < 256) :
    s.operandBytes[k]? = some (Memory.get s.mem (s.pc.toNat + 1 + k)) :=
  getElem?_bytesFrom hk h

theorem fetch_of_dispatch {s : State} {m : Mnemonic} (hpc : s.pc.toNat < 256)
    (h : s.config.opcode.dispatch (Memory.get s.mem s.pc.toNat) = some m) :
    s.fetch = decodeOperands s.operandBytes m := by
  rw [fetch_inside hpc, h]; rfl

theorem fetch_of_illegal {s : State} (hpc : s.pc.toNat < 256)
    (h : s.config.opcode.dispatch (Memory.get s.mem s.pc.toNat) = none) :
    s.fetch = .rejected (.invalidInstruction (Memory.get s.mem s.pc.toNat)) := by
  rw [fetch_inside hpc, h]

/-- Why a fetch is refused, in the order of R119: `pc` past the top, an illegal opcode, refused operands. -/
theorem fetch_rejected {s : State} {e : DecodeError} (h : s.fetch = .rejected e) :
    (256 ≤ s.pc.toNat ∧ e = .noOpcode) ∨
    (s.pc.toNat < 256 ∧ s.config.opcode.dispatch (Memory.get s.mem s.pc.toNat) = none ∧
      e = .invalidInstruction (Memory.get s.mem s.pc.toNat)) ∨
    (s.pc.toNat < 256 ∧ ∃ m, s.config.opcode.dispatch (Memory.get s.mem s.pc.toNat) = some m ∧
      OperandRefusal m.format s.operandBytes e) := by
  by_cases hpc : 256 ≤ s.pc.toNat
  · rw [fetch_past_top hpc] at h
    cases h
    exact .inl ⟨hpc, rfl⟩
  · have hlt : s.pc.toNat < 256 := by omega
    cases hd : s.config.opcode.dispatch (Memory.get s.mem s.pc.toNat) with
    | none =>
      rw [fetch_of_illegal hlt hd] at h
      cases h
      exact .inr (.inl ⟨hlt, rfl, rfl⟩)
    | some m =>
      rw [fetch_of_dispatch hlt hd] at h
      exact .inr (.inr ⟨hlt, m, rfl, decodeOperands_eq_rejected_iff.mp h⟩)

theorem step_of_operandRefusal {s : State} {m : Mnemonic} {e : DecodeError} (hr : s.run = .running)
    (hpc : s.pc.toNat < 256) (hd : s.config.opcode.dispatch (Memory.get s.mem s.pc.toNat) = some m)
    (h : OperandRefusal m.format s.operandBytes e) : step s = raise (recordOf e s.pc) s :=
  step_of_fetch_rejected hr ((fetch_of_dispatch hpc hd).trans (decodeOperands_eq_rejected_iff.mpr h))

/-- A decoded instruction never faults with INVALID_INSTRUCTION. -/
theorem Trap.ne_invalidInstruction {i : Instr} {s : State} {r : HaltRecord} (h : Trap i s r) (op : Byte) (p : Pc) :
    r ≠ .invalidInstruction op p := by
  cases i <;> simp only [Trap, ArithTrap, BranchTrap, UnwrittenRegs, UnwrittenReg] at h <;> aesop

/-- A step that halts in a fault fetched an instruction with that fault, or its fetch was refused with it. -/
theorem step_fault {s t : State} {r : HaltRecord} (h : step s = .next t) (hr : t.run = .halted r)
    (hne : r ≠ .haltOk) :
    (∃ i rest, s.fetch = .instr i rest ∧ Trap i s r) ∨ ∃ e, s.fetch = .rejected e ∧ r = recordOf e s.pc := by
  obtain ⟨hrun, ⟨i, rest, -, -, he⟩ | ⟨i, rest, r', hf, hT, rfl⟩ | ⟨e, hf, rfl⟩⟩ := step_cases h
  · obtain hkept | hok := he.run_kept_or_haltOk
    · cases hr.symm.trans (hkept.trans hrun)
    · cases hr.symm.trans hok
      exact absurd rfl hne
  · cases hr
    exact .inl ⟨i, rest, hf, hT⟩
  · cases hr
    exact .inr ⟨e, hf, rfl⟩

/-- A step that halts with INVALID_INSTRUCTION fetched an illegal opcode (R243). -/
theorem fetch_of_step_invalidInstruction {s t : State} {op : Byte} {p : Pc} (h : step s = .next t)
    (hr : t.run = .halted (.invalidInstruction op p)) :
    p = s.pc ∧ s.pc.toNat < 256 ∧ op = Memory.get s.mem s.pc.toNat ∧ s.config.opcode.dispatch op = none := by
  obtain ⟨i, rest, -, hT⟩ | ⟨e, hf, he⟩ := step_fault h hr nofun
  · exact absurd rfl (hT.ne_invalidInstruction op p)
  · obtain ⟨-, rfl⟩ | ⟨hpc, hd, rfl⟩ | ⟨-, m, -, ⟨-, rfl⟩ | ⟨-, -, a, -, -, rfl⟩ | ⟨-, a, -, b, -, -, -, rfl⟩⟩ :=
      fetch_rejected hf
    · cases he
    · cases he
      exact ⟨rfl, hpc, rfl, hd⟩
    · cases he
    · cases he
    · cases he

/-- Settles O26: an illegal opcode is one the dispatch finds in no row, which refuses the fetch, and no other
refusal and no instruction's fault has that record. -/
theorem illegalOpcodeHalts : Obligations.IllegalOpcodeHalts := by
  refine ⟨fun s hr hpc hm => ?_, fun s t op p h hr => ?_⟩
  · rw [step_of_fetch_rejected hr (fetch_of_illegal (by omega) (OpcodeMap.dispatch_none.mpr hm))]; rfl
  · obtain ⟨hp, hpc, hop, hd⟩ := fetch_of_step_invalidInstruction h hr
    exact ⟨hp, by omega, hop, OpcodeMap.dispatch_none.mp hd⟩

/-- Settles O27: past the top there is no opcode byte to fetch, and at `pc + k = 256` exactly the `k - 1`
operand bytes before it. -/
theorem bytesPastTheTopFault : Obligations.BytesPastTheTopFault := by
  intro s hr
  refine ⟨fun hpc => step_of_fetch_rejected hr (fetch_past_top (by omega)), fun hpc m hd k h1 hk htop => ?_⟩
  have hw := m.format.one_le_width_le_three.2
  have hlen : s.operandBytes.length + 1 = k := by rw [s.length_operandBytes]; omega
  rw [step_of_operandRefusal hr (by omega) hd (.inl ⟨by omega, rfl⟩), hlen, recordOf]
  congr 2
  omega

/-- Settles O28: with every operand byte in memory, no byte is missing, and a register byte above 7 is the only
reason left to refuse. -/
theorem registerBytesAboveSevenFault : Obligations.RegisterBytesAboveSevenFault := by
  intro s m hr hpc hd a b
  have hwidth := m.format.one_le_width_le_three
  have hlen := s.length_operandBytes
  have ha : m.format ≠ .N → s.operandBytes[0]? = some a := fun hN =>
    State.getElem?_operandBytes (by omega) (by have := Format.one_lt_width hN; omega)
  have hb : m.format = .RR → s.operandBytes[1]? = some b := fun hRR =>
    State.getElem?_operandBytes (by omega) (by rw [hRR] at hpc; exact hpc)
  refine ⟨fun hN h7 => ?_, fun hRR ha7 hb7 => ?_, fun hok => ?_⟩
  · exact step_of_operandRefusal hr (by omega) hd (.inr (.inl ⟨by omega, hN, a, ha hN, h7, rfl⟩))
  · exact step_of_operandRefusal hr (by omega) hd
      (.inr (.inr ⟨hRR, a, ha (by simp [hRR]), b, hb hRR, ha7, hb7, rfl⟩))
  · rw [fetch_of_dispatch (by omega) hd]
    cases hdec : decodeOperands s.operandBytes m with
    | instr i rest => exact ⟨i, rest, rfl, decodeOperands_mnemonic hdec⟩
    | rejected e =>
      exfalso
      obtain ⟨hmiss, -⟩ | ⟨-, hN, a', ha', h7, -⟩ | ⟨hRR, a', -, b', hb', -, h7, -⟩ :=
        decodeOperands_eq_rejected_iff.mp hdec
      · omega
      · obtain rfl : a = a' := by simpa [ha hN] using ha'
        obtain hN' | ⟨-, ha7, -⟩ := hok
        · exact hN hN'
        · omega
      · obtain rfl : b = b' := by simpa [hb hRR] using hb'
        obtain hN' | ⟨-, -, hb7⟩ := hok
        · simp [hRR] at hN'
        · have := hb7 hRR; omega

end Machine

end Sys2Proof
end

section
/-! SUPPORT. What an instruction changes and what it leaves alone (spec/10_state.md R32 to R45,
spec/20_memory.md R64), and the invariant of every run. -/

namespace Sys2Proof

/-- The registers an instruction may write. -/
def Instr.dests : Instr → List Reg
  | .ldi a _ | .add a _ | .sub a _ | .mul a _ => [a]
  | .pop a => [a, Reg.sp]
  | .push _ | .call _ | .ret => [Reg.sp]
  | .prn _ | .hlt | .cmp _ _ | .jeq _ | .jmp _ | .jne _ => []

/-- The rows whose instructions always go on at the next instruction (R37). -/
def Mnemonic.sequential : Mnemonic → Bool
  | .ldi | .prn | .add | .sub | .mul | .push | .pop | .cmp => true
  | .hlt | .call | .ret | .jeq | .jmp | .jne => false

namespace Machine

/-! ## Registers -/

/-- POP's two register writes, SP's last (R174). -/
theorem cell_popped (s : State) (a r : Reg) (v w : Byte) :
    ({ s.setReg a v with sp := w } : State).cell r =
      if r = Reg.sp then .written w else if r = a then .written v else s.cell r :=
  (State.cell_withSp (s.setReg a v) w r).trans (by rw [State.cell_setReg])

/-- A register cell after an instruction's effect: kept, or written because it is a destination. -/
theorem Effect.cell {i : Instr} {s t : State} (h : Effect i s t) (r : Reg) :
    t.cell r = s.cell r ∨ (r ∈ i.dests ∧ t.cell r ≠ .unwritten) := by
  have hset : ∀ a v, (s.setReg a v).cell r = s.cell r ∨ (r ∈ [a] ∧ (s.setReg a v).cell r ≠ .unwritten) := by
    intro a v
    by_cases hr : r = a <;> simp [hr]
  have hsp : ∀ (u : State) v, ({ u with sp := v } : State).cell r = u.cell r ∨
      (r = Reg.sp ∧ ({ u with sp := v } : State).cell r ≠ .unwritten) := by
    intro u v
    by_cases hr : r = Reg.sp <;> simp [hr]
  cases i with
  | ldi a imm => subst h; exact hset a _
  | prn a => obtain ⟨v, -, rfl⟩ := h; exact .inl rfl
  | hlt => subst h; exact .inl rfl
  | add a b => obtain ⟨u, v, -, -, -, rfl⟩ := h; exact hset a _
  | sub a b => obtain ⟨u, v, -, -, -, rfl⟩ := h; exact hset a _
  | mul a b => obtain ⟨u, v, -, -, -, rfl⟩ := h; exact hset a _
  | push a => obtain ⟨v, -, -, rfl⟩ := h; simpa [Instr.dests] using hsp s (s.sp - 1)
  | pop a =>
    obtain ⟨-, rfl⟩ := h
    rw [State.cell_advance, cell_popped]
    by_cases hr : r = Reg.sp
    · rw [if_pos hr]; exact .inr ⟨by simp [Instr.dests, hr], nofun⟩
    · rw [if_neg hr]
      by_cases ha : r = a
      · rw [if_pos ha]; exact .inr ⟨by simp [Instr.dests, ha], nofun⟩
      · rw [if_neg ha]; exact .inl rfl
  | call a => obtain ⟨v, -, -, -, rfl⟩ := h; simpa [Instr.dests] using hsp s (s.sp - 1)
  | ret => obtain ⟨-, rfl⟩ := h; simpa [Instr.dests] using hsp s _
  | cmp a b => obtain ⟨u, v, -, -, rfl⟩ := h; exact .inl rfl
  | jeq a => obtain ⟨v, f, -, -, rfl⟩ := h; exact .inl (by split <;> rfl)
  | jmp a => obtain ⟨v, -, rfl⟩ := h; exact .inl rfl
  | jne a => obtain ⟨v, f, -, -, rfl⟩ := h; exact .inl (by split <;> rfl)

theorem Effect.regsKept {i : Instr} {s t : State} (h : Effect i s t) : RegsKept s t i.dests := by
  intro r hr
  obtain hkept | ⟨hmem, -⟩ := h.cell r
  · exact hkept
  · exact absurd hmem hr

/-! ## Memory, FL, output, run state -/

/-- Memory that is the same reads the same. -/
theorem memKept_of_mem_eq {s t : State} (h : t.mem = s.mem) (addrs : List Nat) : MemKept s t addrs :=
  fun _ _ => by rw [h]

theorem Effect.mem_kept {i : Instr} {s t : State} (h : Effect i s t)
    (hi : i.mnemonic ≠ .push ∧ i.mnemonic ≠ .call) : t.mem = s.mem := by
  obtain hkept | ⟨⟨a, rfl | rfl⟩, -⟩ := h.mem
  · exact hkept
  · exact absurd rfl hi.1
  · exact absurd rfl hi.2

theorem Effect.fl_kept {i : Instr} {s t : State} (h : Effect i s t) (hi : i.mnemonic ≠ .cmp) : t.fl = s.fl := by
  obtain hkept | ⟨a, b, rfl⟩ := h.fl
  · exact hkept
  · exact absurd rfl hi

theorem Effect.out_kept {i : Instr} {s t : State} (h : Effect i s t) (hi : i.mnemonic ≠ .prn) :
    t.out = s.out := by
  obtain hkept | ⟨a, rfl⟩ := h.out
  · exact hkept
  · exact absurd rfl hi

theorem Effect.run_kept {i : Instr} {s t : State} (h : Effect i s t) (hi : i.mnemonic ≠ .hlt) :
    t.run = s.run := by
  obtain hkept | rfl := h.run
  · exact hkept
  · exact absurd rfl hi

/-- PUSH and CALL write the one byte below SP (R64). -/
theorem Effect.memKept_slot {i : Instr} {s t : State} {a : Reg} (h : Effect i s t)
    (hi : i = .push a ∨ i = .call a) : MemKept s t [s.sp.toNat - 1] := by
  have hslot := h.slot hi
  obtain hkept | ⟨-, v, hput⟩ := h.mem
  · exact memKept_of_mem_eq hkept _
  · intro c hc
    rw [hput, Memory.get_put_ne]
    have : c ≠ s.sp.toNat - 1 := by simpa using hc
    omega

/-! ## Execution, with its faults -/

/-- Whatever an instruction answers, effect or fault, it writes no register but its destinations and no
parameter, FL only in CMP, `out` only in PRN, and memory only in PUSH and CALL. -/
theorem exec_frame {i : Instr} {s t : State} (h : exec i s = .next t) :
    RegsKept s t i.dests ∧ t.config = s.config ∧ (i.mnemonic ≠ .cmp → t.fl = s.fl) ∧
    (i.mnemonic ≠ .prn → t.out = s.out) ∧ (i.mnemonic ≠ .push ∧ i.mnemonic ≠ .call → t.mem = s.mem) := by
  obtain he | ⟨r, -, rfl⟩ := exec_next h
  · exact ⟨he.regsKept, he.config, he.fl_kept, he.out_kept, he.mem_kept⟩
  · exact ⟨fun _ _ => rfl, rfl, fun _ => rfl, fun _ => rfl, fun _ => rfl⟩

/-- How an instruction leaves the run state: as it was, halted by a fault, or halted by HLT. -/
theorem exec_run {i : Instr} {s t : State} (h : exec i s = .next t) :
    (t.run = s.run ∨ ∃ r, r ≠ .haltOk ∧ t.run = .halted r) ∨ (i = .hlt ∧ t.run = .halted .haltOk) := by
  obtain he | ⟨r, hT, rfl⟩ := exec_next h
  · obtain hkept | rfl := he.run
    · exact .inl (.inl hkept)
    · subst he; exact .inr ⟨rfl, rfl⟩
  · exact .inl (.inr ⟨r, hT.record.1, rfl⟩)

theorem exec_run_of_ne_hlt {i : Instr} {s t : State} (h : exec i s = .next t) (hi : i.mnemonic ≠ .hlt) :
    t.run = s.run ∨ ∃ r, r ≠ .haltOk ∧ t.run = .halted r := by
  obtain hrun | ⟨rfl, -⟩ := exec_run h
  · exact hrun
  · exact absurd rfl hi

/-- Settles O55: the general frame, for instructions whose only destination is `a`. -/
theorem frameOfRegisterWriters : Obligations.FrameOfRegisterWriters := by
  intro s t a b imm i hi h
  have hrun := exec_run_of_ne_hlt h
  obtain ⟨hregs, hconfig, hfl, hout, hmem⟩ := exec_frame h
  simp only [List.mem_cons, List.not_mem_nil, or_false] at hi
  obtain rfl | rfl | rfl | rfl := hi <;>
    exact ⟨hregs, memKept_of_mem_eq (hmem ⟨nofun, nofun⟩) _, hfl nofun, hout nofun, hconfig, hrun nofun⟩

/-- Settles O56: the general frame, for instructions with no destination register. -/
theorem frameOfReadersAndBranches : Obligations.FrameOfReadersAndBranches := by
  intro s t a b i hi h
  have hrun : t.run = s.run ∨ ∃ r, t.run = .halted r ∧ (r = .haltOk → i = .hlt) := by
    obtain (hkept | ⟨r, hr, hhalt⟩) | ⟨rfl, hhalt⟩ := exec_run h
    · exact .inl hkept
    · exact .inr ⟨r, hhalt, fun e => absurd e hr⟩
    · exact .inr ⟨_, hhalt, fun _ => rfl⟩
  have hside : (i ≠ .cmp a b → i.mnemonic ≠ .cmp) ∧ (i ≠ .prn a → i.mnemonic ≠ .prn) ∧
      (i.mnemonic ≠ .push ∧ i.mnemonic ≠ .call) ∧ i.dests = [] := by
    simp only [List.mem_cons, List.not_mem_nil, or_false] at hi
    obtain rfl | rfl | rfl | rfl | rfl | rfl := hi <;> simp [Instr.mnemonic, Instr.dests]
  obtain ⟨hcmp, hprn, hstore, hdests⟩ := hside
  obtain ⟨hregs, hconfig, hfl, hout, hmem⟩ := exec_frame h
  exact ⟨hdests ▸ hregs, memKept_of_mem_eq (hmem hstore) _, fun hi => hfl (hcmp hi), fun hi => hout (hprn hi),
    hconfig, hrun⟩

/-- Settles O57: the general frame, for POP with its two destinations and RET with one. -/
theorem frameOfPopAndRet : Obligations.FrameOfPopAndRet := by
  intro s t a
  constructor <;> intro h <;> obtain ⟨hregs, hconfig, hfl, hout, hmem⟩ := exec_frame h <;>
    exact ⟨hregs, memKept_of_mem_eq (hmem ⟨nofun, nofun⟩) _, hfl nofun, hout nofun, hconfig,
      exec_run_of_ne_hlt h nofun⟩

/-- PUSH and CALL with SP at 0 complete on no path, so they store nothing (R171). -/
theorem exec_push_call_memKept {i : Instr} {s t : State} {a : Reg} (hi : i = .push a ∨ i = .call a)
    (h : exec i s = .next t) :
    (1 ≤ s.sp.toNat → MemKept s t [s.sp.toNat - 1]) ∧ (s.sp.toNat = 0 → MemKept s t []) := by
  obtain he | ⟨r, -, rfl⟩ := exec_next h
  · have hslot := he.slot hi
    exact ⟨fun _ => he.memKept_slot hi, fun h0 => by omega⟩
  · exact ⟨fun _ _ _ => rfl, fun _ _ _ => rfl⟩

/-- Settles O58: the general frame with SP as the destination, and the push slot for memory. -/
theorem frameOfPushAndCall : Obligations.FrameOfPushAndCall := by
  intro s t a i hi h
  have hrun := exec_run_of_ne_hlt h
  obtain ⟨hregs, hconfig, hfl, hout, -⟩ := exec_frame h
  replace hi : i = .push a ∨ i = .call a := by simpa using hi
  obtain ⟨hslot, hzero⟩ := exec_push_call_memKept hi h
  obtain rfl | rfl := hi <;> exact ⟨hregs, hfl nofun, hout nofun, hconfig, hslot, hzero, hrun nofun⟩

/-! ## A step -/

/-- Settles O15: an effect keeps a cell or writes it, and a fault keeps all of them. -/
theorem writtenCellsStayWritten : Obligations.WrittenCellsStayWritten := by
  intro s t h
  obtain ⟨-, ⟨i, rest, -, -, he⟩ | ⟨r, -, -, rfl⟩⟩ := step_effect_or_fault h
  · refine ⟨fun r hr => ?_, fun hfl => ?_⟩
    · obtain hkept | ⟨-, hw⟩ := he.cell r
      · rwa [hkept]
      · exact hw
    · obtain hkept | ⟨a, b, rfl⟩ := he.fl
      · rwa [hkept]
      · obtain ⟨f, hf, -⟩ := he.cmp_fl
        simp [hf]
  · exact ⟨fun _ => id, id⟩

/-- Settles O16: no effect writes the parameters, and a fault changes the run state alone. -/
theorem parametersAreNeverWritten : Obligations.ParametersAreNeverWritten := by
  intro s t h
  obtain ⟨-, ⟨i, rest, -, -, he⟩ | ⟨r, -, -, rfl⟩⟩ := step_effect_or_fault h
  · exact he.config
  · rfl

/-- Settles O10: of the effects only HLT's halts, and every fault replaces the run state by its record. -/
theorem haltingStepChangesOnlyTheRunState : Obligations.HaltingStepChangesOnlyTheRunState := by
  intro s t r h hr
  obtain ⟨hrun, ⟨i, rest, -, -, he⟩ | ⟨r', -, hpc, rfl⟩⟩ := step_effect_or_fault h
  · obtain hkept | rfl := he.run
    · cases hr.symm.trans (hkept.trans hrun)
    · subst he
      cases hr
      exact ⟨rfl, nofun⟩
  · cases hr
    exact ⟨rfl, fun p hp => Option.some.inj (hp.symm.trans hpc)⟩

/-! ## The program counter -/

theorem Effect.pc_of_sequential {i : Instr} {s t : State} (h : Effect i s t)
    (hi : i.mnemonic.sequential = true) : t.pc = s.pc + BitVec.ofNat 9 i.width := by
  cases i with
  | ldi a imm => subst h; exact congrArg (· + _) (State.setReg_pc s a imm)
  | prn a => obtain ⟨v, -, rfl⟩ := h; rfl
  | add a b => obtain ⟨u, v, -, -, -, rfl⟩ := h; exact congrArg (· + _) (State.setReg_pc s a _)
  | sub a b => obtain ⟨u, v, -, -, -, rfl⟩ := h; exact congrArg (· + _) (State.setReg_pc s a _)
  | mul a b => obtain ⟨u, v, -, -, -, rfl⟩ := h; exact congrArg (· + _) (State.setReg_pc s a _)
  | push a => obtain ⟨v, -, -, rfl⟩ := h; rfl
  | pop a => obtain ⟨-, rfl⟩ := h; exact congrArg (· + _) (State.setReg_pc s a s.top)
  | cmp a b => obtain ⟨u, v, -, -, rfl⟩ := h; rfl
  | hlt | call a | ret | jeq a | jmp a | jne a => cases hi

theorem Effect.toNat_pc_of_sequential {i : Instr} {s t : State} (h : Effect i s t)
    (hi : i.mnemonic.sequential = true) (hpc : s.pc.toNat + i.width ≤ 256) :
    t.pc.toNat = s.pc.toNat + i.width := by
  rw [h.pc_of_sequential hi, pc_add s.pc i.width hpc]

/-- A jump goes to exactly the byte. -/
theorem State.toNat_jump_pc (s : State) (v : Byte) : (s.jump v).pc.toNat = v.toNat := toNat_setWidth_pc v

theorem State.toNat_advance_pc {s : State} {n : Nat} (h : s.pc.toNat + n ≤ 256) :
    (s.advance n).pc.toNat = s.pc.toNat + n := pc_add s.pc n h

/-- Settles O30: the sequential instructions advance by their width; each of the others has its own row. -/
theorem nextPcOfEveryInstruction : Obligations.NextPcOfEveryInstruction := by
  intro i s t hpc _ h hrun
  have he : Effect i s t := by
    obtain hr | rfl := hrun
    · exact Effect.of_exec_running h hr
    · exact (next_inj.mp h).symm
  cases i with
  | ldi a imm => exact he.toNat_pc_of_sequential rfl hpc
  | prn a => exact he.toNat_pc_of_sequential rfl hpc
  | add a b => exact he.toNat_pc_of_sequential rfl hpc
  | sub a b => exact he.toNat_pc_of_sequential rfl hpc
  | mul a b => exact he.toNat_pc_of_sequential rfl hpc
  | push a => exact he.toNat_pc_of_sequential rfl hpc
  | pop a => exact he.toNat_pc_of_sequential rfl hpc
  | cmp a b => exact he.toNat_pc_of_sequential rfl hpc
  | hlt => obtain rfl := he; rfl
  | call a =>
    obtain ⟨v, hv, -, -, rfl⟩ := he
    refine ⟨afterPush a (s.sp - 1) v, ?_, State.toNat_jump_pc _ _⟩
    rw [State.cell_jump, State.cell_pushAt, afterPush]
    split
    · rfl
    · exact hv
  | ret => obtain ⟨-, rfl⟩ := he; exact State.toNat_jump_pc _ _
  | jmp a => obtain ⟨v, hv, rfl⟩ := he; exact ⟨v, hv, State.toNat_jump_pc s v⟩
  | jeq a =>
    obtain ⟨v, f, hv, hf, rfl⟩ := he
    refine ⟨v, f, hv, hf, ?_⟩
    split
    · exact State.toNat_jump_pc s v
    · exact State.toNat_advance_pc hpc
  | jne a =>
    obtain ⟨v, f, hv, hf, rfl⟩ := he
    refine ⟨v, f, hv, hf, ?_⟩
    split
    · exact State.toNat_advance_pc hpc
    · exact State.toNat_jump_pc s v

/-! ## The invariant -/

/-- Inside memory, an effect leaves `pc` at 0..256 (R36). -/
theorem Effect.toNat_pc_le {i : Instr} {s t : State} (h : Effect i s t) (hpc : s.pc.toNat + i.width ≤ 256) :
    t.pc.toNat ≤ 256 := by
  have hjump : ∀ (u : State) (v : Byte), (u.jump v).pc.toNat ≤ 256 := by
    intro u v
    rw [State.toNat_jump_pc]
    omega
  cases hi : i.mnemonic.sequential with
  | true => rw [h.toNat_pc_of_sequential hi hpc]; exact hpc
  | false =>
    cases i with
    | hlt => subst h; exact Nat.le_of_add_right_le hpc
    | call a => obtain ⟨v, -, -, -, rfl⟩ := h; exact hjump _ _
    | ret => obtain ⟨-, rfl⟩ := h; exact hjump _ _
    | jmp a => obtain ⟨v, -, rfl⟩ := h; exact hjump s v
    | jeq a =>
      obtain ⟨v, f, -, -, rfl⟩ := h
      split
      · exact hjump s v
      · exact (State.toNat_advance_pc hpc).trans_le hpc
    | jne a =>
      obtain ⟨v, f, -, -, rfl⟩ := h
      split
      · exact (State.toNat_advance_pc hpc).trans_le hpc
      · exact hjump s v
    | ldi a v | prn a | add a b | sub a b | mul a b | push a | pop a | cmp a b => cases hi

/-- An effect keeps memory canonical. -/
theorem Effect.mem_wf {i : Instr} {s t : State} (h : Effect i s t) (hwf : s.mem.wf = true) : t.mem.wf = true := by
  obtain hkept | ⟨-, v, hput⟩ := h.mem
  · rwa [hkept]
  · rw [hput]
    exact Memory.put_wf hwf (BitVec.isLt _)

theorem State.flOk_iff {s : State} : s.flOk = true ↔ ∀ f, s.fl = .written f → flagsLegal f = true := by
  unfold State.flOk
  cases s.fl <;> simp

/-- An effect keeps FL legal: CMP alone writes it, with one bit set (R40, R42). -/
theorem Effect.flOk {i : Instr} {s t : State} (h : Effect i s t) (hfl : s.flOk = true) : t.flOk = true := by
  rw [State.flOk_iff] at hfl ⊢
  obtain hkept | ⟨a, b, rfl⟩ := h.fl
  · rwa [hkept]
  · obtain ⟨f, hf, hone⟩ := h.cmp_fl
    intro g hg
    obtain rfl : f = g := by simpa [hf] using hg
    exact (Bool.and_eq_true_iff.mp hone).1

theorem State.recordOk_of_running {s : State} (h : s.run = .running) : s.recordOk = true := by
  rw [State.recordOk, h]

theorem State.recordOk_halted {s : State} {r : HaltRecord} (h : s.run = .halted r) :
    s.recordOk = true ↔ ∀ p, recordPc r = some p → p = s.pc := by
  rw [State.recordOk, h]
  cases hp : recordPc r <;> simp [hp]

/-- An effect keeps the halt record precise: it leaves none, or HLT's, which names no address. -/
theorem Effect.recordOk {i : Instr} {s t : State} (h : Effect i s t) (hrun : s.run = .running) :
    t.recordOk = true := by
  obtain hkept | hok := h.run_kept_or_haltOk
  · exact State.recordOk_of_running (hkept.trans hrun)
  · exact (State.recordOk_halted hok).mpr nofun

/-- Settles O6: an effect of a fetched instruction keeps each clause of the invariant, and a fault changes the
run state alone, to a record of the `pc` it leaves in place. -/
theorem stepKeepsInvariant : Obligations.StepKeepsInvariant := by
  intro s t hinv h
  obtain ⟨hop, hmem, hpc, hfl, -⟩ := hinv
  obtain ⟨hrun, ⟨i, rest, hf, -, he⟩ | ⟨r, -, hrec, rfl⟩⟩ := step_effect_or_fault h
  · exact ⟨by rwa [he.config], he.mem_wf hmem, he.toNat_pc_le (pc_add_width_le hf), he.flOk hfl, he.recordOk hrun⟩
  · exact ⟨hop, hmem, hpc, hfl,
      (State.recordOk_halted rfl).mpr fun p hp => Option.some.inj (hp.symm.trans hrec)⟩

end Machine

end Sys2Proof
end

section
/-! SUPPORT. Reset and launch, and how runs go on and end (spec/10_state.md R43 to R47, spec/20_memory.md R61,
spec/60_exceptions.md R240, spec/70_reset_and_hazards.md). -/

namespace Sys2Proof.Machine

/-! ## Reset -/

/-- Registers 0..6 after reset hold what REG_RESET says (R33), whatever memory holds. -/
theorem State.cell_resetWith (c : Config) (rr fr : ResetMode) (m : Memory) {r : Reg} (h : r ≠ Reg.sp) :
    ({ State.resetWith c rr fr with mem := m } : State).cell r = RegCell.reset 0 rr := by
  have hlt : r.val < 7 := by
    have : r.val ≠ 7 := fun e => h (Fin.ext e)
    omega
  rw [State.cell, dif_pos hlt]
  exact Vector.getElem_replicate _

/-- Settles O1: each field of `State.reset` is `resetWith`'s, with both reset parameters `zero`. -/
theorem resetValues : Obligations.ResetValues :=
  ⟨rfl, rfl, rfl, rfl, fun _ hr => State.cell_resetWith defaultConfig .zero .zero [] hr, rfl, fun _ => rfl, rfl, rfl⟩

/-- Memory at launch: the image, and MEM_INIT at the addresses past it (R61). -/
def launchMem (memInit : Vector Byte 256) (image : List Byte) : Memory :=
  Memory.fill (launchByte memInit image) 256 []

theorem launchMem_wf (memInit : Vector Byte 256) (image : List Byte) : (launchMem memInit image).wf = true :=
  Memory.fill_wf rfl _ (le_refl 256)

theorem get_launchMem (memInit : Vector Byte 256) (image : List Byte) {a : Nat} (h : a < 256) :
    Memory.get (launchMem memInit image) a = launchByte memInit image a :=
  (Memory.get_fill rfl _ (le_refl 256) a).trans (if_pos h)

/-- What a launch answers: the reset state with the launch's memory, for an image that fits. -/
theorem launch_eq_some_iff {c : Config} {rr fr : ResetMode} {memInit : Vector Byte 256} {image : List Byte}
    {s : State} : launch c rr fr memInit image = some s ↔
      image.length ≤ 256 ∧ s = { State.resetWith c rr fr with mem := launchMem memInit image } := by
  unfold launch imageWf
  by_cases h : image.length ≤ 256 <;> simp [h, launchMem, eq_comm]

/-- Settles O2: the launched state is the reset state but for memory, whose bytes are read back one by one. -/
theorem launchSetsEveryRowOfTheResetTable : Obligations.LaunchSetsEveryRowOfTheResetTable := by
  intro c rr fr memInit image hlen
  refine ⟨{ State.resetWith c rr fr with mem := launchMem memInit image },
    launch_eq_some_iff.mpr ⟨hlen, rfl⟩, fun a h => ?_, fun a h hge => ?_, fun r hr => ?_, rfl, ?_,
    rfl, rfl, rfl, rfl⟩
  · rw [get_launchMem _ _ (h.trans_le hlen), launchByte_of_lt h]
  · rw [get_launchMem _ _ h, launchByte_of_ge hge h]
  · rw [State.cell_resetWith c rr fr _ hr]; cases rr <;> rfl
  · cases fr <;> rfl

/-- Settles O3: a launch needs an image that fits. -/
theorem overlongImageIsNotLaunched : Obligations.OverlongImageIsNotLaunched := by
  intro c rr fr memInit image hlen
  rw [Option.eq_none_iff_forall_ne_some]
  intro s hs
  have := (launch_eq_some_iff.mp hs).1
  omega

/-- The invariant at reset, with any canonical memory. -/
theorem State.inv_resetWith {c : Config} (rr fr : ResetMode) {m : Memory} (hc : c.opcode.wf = true)
    (hm : m.wf = true) : State.Inv { State.resetWith c rr fr with mem := m } :=
  ⟨hc, hm, Nat.zero_le 256, by cases fr <;> rfl, rfl⟩

/-- Settles O4: the recommended OPCODE is well-formed, and an empty memory is canonical. -/
theorem resetMeetsInvariant : Obligations.ResetMeetsInvariant :=
  State.inv_resetWith .zero .zero (by decide) rfl

/-- Settles O5: the memory of a launch is canonical. -/
theorem launchMeetsInvariant : Obligations.LaunchMeetsInvariant := by
  intro c rr fr memInit image s hc h
  obtain ⟨-, rfl⟩ := launch_eq_some_iff.mp h
  exact State.inv_resetWith rr fr hc (launchMem_wf memInit image)

/-! ## Runs -/

/-- What every step keeps, every run keeps. -/
theorem Reaches.keeps {P : State → Prop} (hstep : ∀ s t, P s → step s = .next t → P t) {s t : State}
    (h : Reaches s t) (hs : P s) : P t := by
  induction h with
  | refl => exact hs
  | tail _ ht ih => exact hstep _ _ ih ht

/-- Settles O8: the invariant and the parameters hold at the launch and every step keeps them. -/
theorem launchedRunsMeetInvariant : Obligations.LaunchedRunsMeetInvariant := by
  intro c rr fr memInit image s t hc h hreach
  have hconfig : s.config = c := by
    obtain ⟨-, rfl⟩ := launch_eq_some_iff.mp h
    rfl
  refine ⟨hreach.keeps stepKeepsInvariant (launchMeetsInvariant c rr fr memInit image s hc h), ?_⟩
  exact hreach.keeps (P := fun u => u.config = c)
    (fun u v hu hv => (parametersAreNeverWritten u v hv).trans hu) hconfig

theorem step_halted {s : State} {r : HaltRecord} (h : s.run = .halted r) : step s = .fault (.halted r) := by
  unfold step; rw [h]

theorem step_running_total {s : State} (h : s.run = .running) : ∃ t, step s = .next t := by
  cases hf : s.fetch with
  | instr i rest => rw [step_of_fetch_instr h hf]; exact exec_total i s
  | rejected e => exact ⟨_, step_of_fetch_rejected h hf⟩

/-- Settles O7: a fetched instruction always answers a next state, and a refused fetch is a fault, which is a
next state too. -/
theorem stepIsDefinedExactlyInRunning : Obligations.StepIsDefinedExactlyInRunning :=
  ⟨fun _ _ _ => ⟨rfl, rfl⟩, fun _ h => step_running_total h, fun _ _ h => step_halted h⟩

/-- Nothing follows a halted state. -/
theorem Reaches.eq_of_halted {s t : State} {r : HaltRecord} (h : Reaches s t) (hs : s.run = .halted r) :
    t = s := by
  refine h.keeps (P := fun u => u = s) (fun u v hu hv => ?_) rfl
  rw [hu, step_halted hs] at hv
  cases hv

/-- Settles O9: a halted state has no step, and the run state decides how a run has ended. -/
theorem haltedRunsAreOver : Obligations.HaltedRunsAreOver := by
  refine ⟨fun _ _ _ => rfl, fun s t r hs h => h.eq_of_halted hs, fun s => ?_⟩
  unfold State.endedWell State.endedInFault
  cases s.run with
  | running => simp
  | halted r => by_cases hr : r = .haltOk <;> simp [hr]

/-! ## HALT_OK -/

/-- HLT's byte is its own under every OPCODE: its row is found before the eleven (R94). -/
theorem dispatch_hlt (o : OpcodeMap) : o.dispatch 0x01 = some .hlt := rfl

theorem fetch_hlt_iff {s : State} : (∃ rest, s.fetch = .instr .hlt rest) ↔
    s.pc.toNat ≤ 255 ∧ Memory.get s.mem s.pc.toNat = 0x01 := by
  constructor
  · rintro ⟨rest, h⟩
    have := pc_add_width_le h
    exact ⟨Nat.le_of_succ_le_succ this, byteOf_mnemonic_of_fetch h⟩
  · rintro ⟨hpc, hbyte⟩
    exact ⟨s.operandBytes, (fetch_of_dispatch (m := .hlt) (by omega) (by rw [hbyte]; exact dispatch_hlt _)).trans rfl⟩

/-- A step that stops with success fetched a HLT (R133). -/
theorem fetch_hlt_of_step {s t : State} (h : step s = .next t) (hok : t.run = .halted .haltOk) :
    ∃ rest, s.fetch = .instr .hlt rest := by
  obtain ⟨hrun, ⟨i, rest, hf, -, he⟩ | ⟨r, hr, -, rfl⟩⟩ := step_effect_or_fault h
  · obtain hkept | rfl := he.run
    · cases hok.symm.trans (hkept.trans hrun)
    · exact ⟨rest, hf⟩
  · cases hok
    exact absurd rfl hr

/-- Settles O11: HLT's effect alone leaves HALT_OK, and HLT is fetched exactly where 0x01 stands. -/
theorem onlyHltStopsWithSuccess : Obligations.OnlyHltStopsWithSuccess := by
  refine fun s hrun => ⟨⟨?_, ?_⟩, ?_⟩
  · rintro ⟨t, h, hok⟩
    exact fetch_hlt_iff.mp (fetch_hlt_of_step h hok)
  · intro hbyte
    obtain ⟨rest, hf⟩ := fetch_hlt_iff.mpr hbyte
    exact ⟨_, step_of_fetch_instr hrun hf, rfl⟩
  · intro t h hok
    rw [(haltingStepChangesOnlyTheRunState s t _ h hok).1]

/-- Settles O59: code 0 is HALT_OK's alone (R240). -/
theorem exitStatusIsZeroExactlyOnHalt : Obligations.ExitStatusIsZeroExactlyOnHalt := by
  intro r
  rw [exitsZero, beq_iff_eq]
  cases r with
  | haltOk => exact iff_of_true rfl rfl
  | _ => exact iff_of_false nofun nofun

/-! ## The output channel -/

theorem State.setReg_withOut (s : State) (o : List Byte) (r : Reg) (v : Byte) :
    ({ s with out := o } : State).setReg r v = { s.setReg r v with out := o } := by
  unfold State.setReg; split <;> rfl

theorem ArithEffect.withOut {sel : AluSel} {a b : Reg} {s t : State} (o : List Byte)
    (h : ArithEffect sel a b s t) : ArithEffect sel a b { s with out := o } { t with out := o } := by
  obtain ⟨u, v, hu, hv, hc, rfl⟩ := h
  exact ⟨u, v, hu, hv, hc, by rw [State.setReg_withOut s o]; rfl⟩

/-- An instruction other than PRN has the same effect whatever `out` holds, and carries it along. -/
theorem Effect.withOut {i : Instr} {s t : State} (o : List Byte) (hi : i.mnemonic ≠ .prn) (h : Effect i s t) :
    Effect i { s with out := o } { t with out := o } := by
  cases i with
  | ldi a imm => subst h; exact (congrArg (State.advance · 3) (State.setReg_withOut s o a imm)).symm
  | prn a => exact absurd rfl hi
  | hlt => subst h; rfl
  | add a b => exact ArithEffect.withOut o h
  | sub a b => exact ArithEffect.withOut o h
  | mul a b => exact ArithEffect.withOut o h
  | push a => obtain ⟨v, hv, h0, rfl⟩ := h; exact ⟨v, hv, h0, rfl⟩
  | pop a => obtain ⟨h1, rfl⟩ := h; exact ⟨h1, by rw [State.setReg_withOut s o]; rfl⟩
  | call a => obtain ⟨v, hv, h1, h0, rfl⟩ := h; exact ⟨v, hv, h1, h0, rfl⟩
  | ret => obtain ⟨h1, rfl⟩ := h; exact ⟨h1, rfl⟩
  | cmp a b => obtain ⟨u, v, hu, hv, rfl⟩ := h; exact ⟨u, v, hu, hv, rfl⟩
  | jmp a => obtain ⟨v, hv, rfl⟩ := h; exact ⟨v, hv, rfl⟩
  | jeq a => obtain ⟨v, f, hv, hf, rfl⟩ := h; exact ⟨v, f, hv, hf, by split <;> rfl⟩
  | jne a => obtain ⟨v, f, hv, hf, rfl⟩ := h; exact ⟨v, f, hv, hf, by split <;> rfl⟩

/-- What an effect appends to `out` does not depend on what it holds. -/
theorem Effect.appends {i : Instr} {s t : State} (h : Effect i s t) (o : List Byte) :
    ∃ d, t.out = s.out ++ d ∧ Effect i { s with out := o } { t with out := o ++ d } := by
  by_cases hi : i.mnemonic = .prn
  · cases i with
    | prn a => obtain ⟨v, hv, rfl⟩ := h; exact ⟨[v], rfl, v, hv, rfl⟩
    | _ => cases hi
  · exact ⟨[], by rw [h.out_kept hi, List.append_nil], by rw [List.append_nil]; exact h.withOut o hi⟩

/-- No fault depends on `out`. -/
theorem Trap.withOut {i : Instr} {s : State} {r : HaltRecord} (o : List Byte) (h : Trap i s r) :
    Trap i { s with out := o } r := by
  cases i <;> exact h

/-- A step on any other output appends the same (R43). -/
theorem step_withOut {s t : State} (h : step s = .next t) (o : List Byte) :
    ∃ d, t.out = s.out ++ d ∧ step { s with out := o } = .next { t with out := o ++ d } := by
  have hkept : ∀ r, t = { s with run := .halted r } →
      t.out = s.out ++ [] ∧ raise r { s with out := o } = .next { t with out := o ++ [] } := by
    rintro r rfl
    rw [List.append_nil, List.append_nil]
    exact ⟨rfl, rfl⟩
  obtain ⟨hrun, ⟨i, rest, hf, -, he⟩ | ⟨i, rest, r, hf, hT, ht⟩ | ⟨e, hf, ht⟩⟩ := step_cases h
  · obtain ⟨d, hd, he'⟩ := he.appends o
    exact ⟨d, hd, (step_of_fetch_instr (s := { s with out := o }) hrun hf).trans (exec_of_effect he')⟩
  · obtain ⟨hout, hraise⟩ := hkept r ht
    refine ⟨[], hout, ?_⟩
    rw [step_of_fetch_instr (s := { s with out := o }) hrun hf, exec_of_trap (hT.withOut o), hraise]
  · obtain ⟨hout, hraise⟩ := hkept _ ht
    exact ⟨[], hout, (step_of_fetch_rejected (s := { s with out := o }) hrun hf).trans hraise⟩

/-- A step that changes `out` fetched a PRN. -/
theorem fetch_prn_of_step_out_ne {s t : State} (h : step s = .next t) (hout : t.out ≠ s.out) :
    ∃ a rest, s.fetch = .instr (.prn a) rest := by
  obtain ⟨-, ⟨i, rest, hf, -, he⟩ | ⟨r, -, -, rfl⟩⟩ := step_effect_or_fault h
  · obtain hkept | ⟨a, rfl⟩ := he.out
    · exact absurd hkept hout
    · exact ⟨a, rest, hf⟩
  · exact absurd rfl hout

/-- Settles O13: PRN's effect is the only one on `out`, and no effect or fault asks what `out` holds. -/
theorem onlyPrnWritesOutputAndNothingReadsIt : Obligations.OnlyPrnWritesOutputAndNothingReadsIt := by
  refine ⟨fun _ _ _ => rfl, fun s t h => ⟨fetch_prn_of_step_out_ne h, fun a rest hf hr => ?_, step_withOut h⟩⟩
  obtain ⟨v, hv, rfl⟩ := Effect.of_step h hf hr
  exact ⟨v, hv, rfl⟩

end Sys2Proof.Machine
end

section
/-! SUPPORT. What each instruction does when it completes (spec/41 to 45: R130 to R133, R154 to R156, R173,
R174, R190, R191, R210 to R214). -/

namespace Sys2Proof.Machine

/-! ## Frames of effects -/

theorem Effect.memKept {i : Instr} {s t : State} (h : Effect i s t)
    (hi : i.mnemonic ≠ .push ∧ i.mnemonic ≠ .call) : MemKept s t [] :=
  memKept_of_mem_eq (h.mem_kept hi) []

/-- The frame of LDI, ADD, SUB, MUL and POP: beside their destinations they change `pc` alone. -/
theorem Effect.frame_of_load {i : Instr} {s t : State} (h : Effect i s t) (m : Mnemonic)
    (hm : i.mnemonic = m) (hi : m ∈ [.ldi, .add, .sub, .mul, .pop]) (hpc : s.pc.toNat + i.width ≤ 256) :
    RegsKept s t i.dests ∧ MemKept s t [] ∧ t.fl = s.fl ∧ t.out = s.out ∧ t.run = s.run ∧
      t.config = s.config ∧ t.pc.toNat = s.pc.toNat + i.width := by
  have hother : i.mnemonic.sequential = true ∧ (i.mnemonic ≠ .push ∧ i.mnemonic ≠ .call) ∧
      i.mnemonic ≠ .cmp ∧ i.mnemonic ≠ .prn ∧ i.mnemonic ≠ .hlt := by
    rw [hm]
    revert hi
    cases m <;> decide
  obtain ⟨hseq, hstore, hcmp, hprn, hhlt⟩ := hother
  exact ⟨h.regsKept, h.memKept hstore, h.fl_kept hcmp, h.out_kept hprn, h.run_kept hhlt, h.config,
    h.toNat_pc_of_sequential hseq hpc⟩

/-! ## Data move, output and halt -/

/-- Settles O31: the effect of LDI is one register write. -/
theorem ldiLoadsTheImmediate : Obligations.LdiLoadsTheImmediate := by
  intro s a imm hpc
  have he : Effect (.ldi a imm) s ((s.setReg a imm).advance 3) := rfl
  refine ⟨_, exec_of_effect he, by simp, fun ha => ?_, he.frame_of_load .ldi rfl (by decide) hpc⟩
  rw [State.advance_sp, State.setReg_sp, if_pos ha]

/-- Settles O32: the effect of PRN is one byte of output. -/
theorem prnEmitsTheRegister : Obligations.PrnEmitsTheRegister := by
  intro s a v hpc hv
  have he : Effect (.prn a) s ((s.emit v).advance 2) := ⟨v, hv, rfl⟩
  refine ⟨_, exec_of_effect he, rfl, ?_, he.regsKept, he.memKept ⟨nofun, nofun⟩, rfl, rfl, rfl,
    he.toNat_pc_of_sequential rfl hpc⟩
  rintro rfl
  simpa using hv.symm

/-- Settles O33: the effect of HLT is the halt. -/
theorem hltHalts : Obligations.HltHalts :=
  fun _ => ⟨_, rfl, rfl, rfl, fun _ _ => rfl, fun _ _ => rfl, rfl, rfl, rfl⟩

/-! ## Arithmetic -/

/-- ADD, SUB and MUL of written registers complete unless the exact result is out of range under `fault`, and
store it modulo 256 (R151). -/
theorem ArithEffect.exists_of_written {sel : AluSel} {a b : Reg} {s : State} {u v : Byte}
    (hu : s.cell a = .written u) (hv : s.cell b = .written v)
    (hc : s.config.arith = .wrap ∨ (0 ≤ arithResult sel u v ∧ arithResult sel u v ≤ 255)) :
    ∃ t w, ArithEffect sel a b s t ∧ t.cell a = .written w ∧ (w.toNat : Int) = arithResult sel u v % 256 := by
  refine ⟨_, BitVec.ofInt 8 (arithResult sel u v), ⟨u, v, hu, hv, hc, rfl⟩, by simp, ?_⟩
  rw [BitVec.toNat_ofInt]
  omega

/-- Settles O35: the exact sum is not negative, so it is in range when it is at most 255. -/
theorem addStoresTheReducedSum : Obligations.AddStoresTheReducedSum := by
  intro s a b u v hpc hu hv hc
  have hsum : arithResult .add u v = (u.toNat : Int) + v.toNat := rfl
  obtain ⟨t, w, he, hw, hmod⟩ := ArithEffect.exists_of_written (sel := .add) hu hv (hc.imp_right fun _ => by omega)
  have he : Effect (.add a b) s t := he
  exact ⟨t, w, exec_of_effect he, hw, by omega, he.frame_of_load .add rfl (by decide) hpc⟩

/-- Settles O36: the exact difference is at most 255, so it is in range when it is not negative. -/
theorem subStoresTheReducedDifference : Obligations.SubStoresTheReducedDifference := by
  intro s a b u v hpc hu hv hc
  have hdiff : arithResult .sub u v = (u.toNat : Int) - v.toNat := rfl
  obtain ⟨t, w, he, hw, hmod⟩ := ArithEffect.exists_of_written (sel := .sub) hu hv (hc.imp_right fun _ => by omega)
  have he : Effect (.sub a b) s t := he
  exact ⟨t, w, exec_of_effect he, hw, hmod, he.frame_of_load .sub rfl (by decide) hpc⟩

/-- Settles O37: the exact product is not negative, so it is in range when it is at most 255. -/
theorem mulStoresTheReducedProduct : Obligations.MulStoresTheReducedProduct := by
  intro s a b u v hpc hu hv hc
  have hprod : arithResult .mul u v = ((u.toNat * v.toNat : Nat) : Int) := (Nat.cast_mul _ _).symm
  obtain ⟨t, w, he, hw, hmod⟩ := ArithEffect.exists_of_written (sel := .mul) hu hv (hc.imp_right fun _ => by omega)
  have he : Effect (.mul a b) s t := he
  exact ⟨t, w, exec_of_effect he, hw, by omega, he.frame_of_load .mul rfl (by decide) hpc⟩

/-! ## Compare and branch -/

/-- CMP's three flags are the three outcomes of the unsigned comparison (R150, R210). -/
theorem flags_compareFlags (u v : Byte) :
    flagE (compareFlags u v) = decide (u.toNat = v.toNat) ∧
    flagG (compareFlags u v) = decide (v.toNat < u.toNat) ∧
    flagL (compareFlags u v) = decide (u.toNat < v.toNat) := by
  unfold compareFlags
  obtain hlt | heq | hgt := Nat.lt_trichotomy u.toNat v.toNat
  · rw [if_neg hlt.ne, if_neg hlt.not_gt]
    simp [flagE, flagG, flagL, hlt, hlt.ne, hlt.le]
  · rw [if_pos heq]
    simp [flagE, flagG, flagL, heq]
  · rw [if_neg hgt.ne', if_pos hgt]
    simp [flagE, flagG, flagL, hgt, hgt.ne', hgt.le]

/-- Settles O40: the effect of CMP is the flags of the comparison. -/
theorem cmpSetsTheFlagOfTheOrder : Obligations.CmpSetsTheFlagOfTheOrder := by
  intro s a b u v hpc hu hv
  have he : Effect (.cmp a b) s ((s.setFlags (compareFlags u v)).advance 3) := ⟨u, v, hu, hv, rfl⟩
  obtain ⟨hE, hG, hL⟩ := flags_compareFlags u v
  refine ⟨_, compareFlags u v, exec_of_effect he, rfl, hE, hG, hL, ?_, he.regsKept, he.memKept ⟨nofun, nofun⟩,
    rfl, rfl, rfl, he.toNat_pc_of_sequential rfl hpc⟩
  rintro rfl
  obtain rfl : u = v := by simpa [hu] using hv
  exact if_pos rfl

/-- Settles O41: the effect of JMP is the jump. -/
theorem jmpGoesToTheRegister : Obligations.JmpGoesToTheRegister :=
  fun s _ v hv => ⟨_, exec_of_effect ⟨v, hv, rfl⟩, State.toNat_jump_pc s v, rfl⟩

/-- Settles O42: the effect of JEQ is the jump when E is set, the advance when it is clear. -/
theorem jeqBranchesOnEqual : Obligations.JeqBranchesOnEqual := by
  intro s a v f hpc hv hf
  refine ⟨_, exec_of_effect ⟨v, f, hv, hf, rfl⟩, by split <;> rfl, fun hE => ?_, fun hE => ?_⟩
  · rw [if_pos hE]; exact State.toNat_jump_pc s v
  · rw [if_neg (by simp [hE])]; exact State.toNat_advance_pc hpc

/-- Settles O43: the effect of JNE is the jump when E is clear, the advance when it is set. -/
theorem jneBranchesOnNotEqual : Obligations.JneBranchesOnNotEqual := by
  intro s a v f hpc hv hf
  refine ⟨_, exec_of_effect ⟨v, f, hv, hf, rfl⟩, by split <;> rfl, fun hE => ?_, fun hE => ?_⟩
  · rw [if_neg (by simp [hE])]; exact State.toNat_jump_pc s v
  · rw [if_pos hE]; exact State.toNat_advance_pc hpc

/-! ## Stack and subroutine -/

theorem sp_ne_zero {s : State} (h : 1 ≤ s.sp.toNat) : s.sp ≠ 0 := by
  intro e
  rw [e] at h
  exact absurd h (by decide)

/-- The byte a push leaves at its slot. -/
theorem get_put_slot {m : Memory} (hwf : m.wf = true) {sp : Byte} (hsp : sp.toNat = (sp - 1).toNat + 1) (v : Byte) :
    Memory.get (Memory.put m (sp - 1).toNat v) (sp.toNat - 1) = v := by
  rw [Memory.get_put hwf, if_pos (by omega)]

/-- Settles O44: the effect of PUSH stores at `SP - 1`, which does not wrap, what the register then holds. -/
theorem pushStoresBelowSp : Obligations.PushStoresBelowSp := by
  intro s a v hpc hwf hv hsp
  have he : Effect (.push a) s ((s.pushAt (s.sp - 1) (afterPush a (s.sp - 1) v)).advance 2) :=
    ⟨v, hv, sp_ne_zero hsp, rfl⟩
  have hslot := he.slot (.inl rfl)
  have hget : Memory.get (Memory.put s.mem (s.sp - 1).toNat (afterPush a (s.sp - 1) v)) (s.sp.toNat - 1) = _ :=
    get_put_slot hwf hslot _
  refine ⟨_, exec_of_effect he, ?_, fun ha => ?_, fun ha => ?_, he.regsKept, he.memKept_slot (.inl rfl), rfl, rfl,
    rfl, rfl, he.toNat_pc_of_sequential rfl hpc⟩
  · exact (Nat.sub_eq_of_eq_add hslot).symm
  · exact hget.trans (if_neg ha)
  · exact (congrArg _ (hget.trans (if_pos ha))).trans (Nat.sub_eq_of_eq_add hslot).symm

/-- Settles O45: POP writes its register and then SP, which for register 7 are the same. -/
theorem popLoadsFromSp : Obligations.PopLoadsFromSp := by
  refine ⟨fun s a hpc ha hsp => ?_, fun s hpc htop => ?_⟩
  · have hnew : popNewSp a s = (s.sp.toNat + 1 : Nat) := by simp [popNewSp, ha]
    have he : Effect (.pop a) s _ := ⟨by omega, rfl⟩
    refine ⟨_, exec_of_effect he, (he.pop_cell_sp_mem ha).1, ?_, he.frame_of_load .pop rfl (by decide) hpc⟩
    rw [(he.pop_cell_sp_mem ha).2.1]
    bv_omega
  · have hnew : popNewSp Reg.sp s = (s.top.toNat + 1 : Nat) := by simp [popNewSp]
    have htop' : s.top.toNat ≤ 254 := htop
    have he : Effect (.pop Reg.sp) s _ := ⟨by omega, rfl⟩
    obtain ⟨hregs, hrest⟩ := he.frame_of_load .pop rfl (by decide) hpc
    refine ⟨_, exec_of_effect he, ?_, by simpa [Instr.dests, RegsKept] using hregs, hrest⟩
    change (BitVec.ofInt 8 (popNewSp Reg.sp s)).toNat = s.top.toNat + 1
    rw [hnew, BitVec.ofInt_natCast, BitVec.toNat_ofNat]
    omega

/-- Settles O46: the effect of CALL stores `pc + 2`, which fits a byte, at `SP - 1`. -/
theorem callPushesTheReturnAddress : Obligations.CallPushesTheReturnAddress := by
  intro s a v hpc hwf hv hsp
  have he : Effect (.call a) s _ := ⟨v, hv, by omega, sp_ne_zero hsp, rfl⟩
  have hslot := he.slot (.inr rfl)
  refine ⟨_, exec_of_effect he, (Nat.sub_eq_of_eq_add hslot).symm, ?_, fun ha => ?_, fun ha => ?_, he.regsKept,
    he.memKept_slot (.inr rfl), rfl, rfl, rfl, rfl⟩
  · obtain ⟨-, htop⟩ := he.call_top hwf
    rw [Nat.sub_eq_of_eq_add hslot]
    exact htop
  · rw [State.toNat_jump_pc, afterPush, if_neg ha]
  · rw [State.toNat_jump_pc, afterPush, if_pos ha, Nat.sub_eq_of_eq_add hslot]

/-- Settles O47: the effect of RET is the jump to the byte at SP, which is then one more. -/
theorem retPopsThePc : Obligations.RetPopsThePc := by
  intro s hsp
  have he : Effect .ret s _ := ⟨by omega, rfl⟩
  obtain ⟨hpc, hsp', hrun⟩ := he.ret_pc_sp_run
  refine ⟨_, exec_of_effect he, hpc, ?_, he.regsKept, he.memKept ⟨nofun, nofun⟩, rfl, rfl, hrun, rfl⟩
  rw [hsp']
  bv_omega

end Sys2Proof.Machine
end

section
/-! SUPPORT. When a fault is raised, and by what (spec/60_exceptions.md R244 to R247), and what reads and
writes memory (spec/20_memory.md R64, R75). -/

namespace Sys2Proof.Machine

/-! ## ARITH_RANGE -/

/-- ADD, SUB and MUL raise ARITH_RANGE of the exact result, under `fault`, when it leaves 0..255 (R151). -/
theorem ArithTrap.arithRange {sel : AluSel} {a b : Reg} {s : State} {r : Int} {p : Pc}
    (h : ArithTrap sel a b s (.arithRange r p)) : s.config.arith = .fault ∧ (r < 0 ∨ 255 < r) ∧
      ∃ u v, s.cell a = .written u ∧ s.cell b = .written v ∧ r = arithResult sel u v := by
  obtain (⟨-, hr⟩ | ⟨-, -, hr⟩) | ⟨u, v, hu, hv, hm, hc, hr⟩ := h
  · cases hr
  · cases hr
  · cases hr
    exact ⟨hm, hc, u, v, hu, hv, rfl⟩

/-- ADD, SUB and MUL alone raise ARITH_RANGE (R247). -/
theorem Trap.arithRange {i : Instr} {s : State} {r : Int} {p : Pc} (h : Trap i s (.arithRange r p)) :
    s.config.arith = .fault ∧ (r < 0 ∨ 255 < r) ∧ ∃ a b u v, s.cell a = .written u ∧ s.cell b = .written v ∧
      ((i = .add a b ∧ r = (u.toNat : Int) + v.toNat) ∨ (i = .sub a b ∧ r = (u.toNat : Int) - v.toNat) ∨
       (i = .mul a b ∧ r = (u.toNat : Int) * v.toNat)) := by
  cases i with
  | add a b =>
    obtain ⟨hm, hc, u, v, hu, hv, hr⟩ := ArithTrap.arithRange h
    exact ⟨hm, hc, a, b, u, v, hu, hv, .inl ⟨rfl, hr⟩⟩
  | sub a b =>
    obtain ⟨hm, hc, u, v, hu, hv, hr⟩ := ArithTrap.arithRange h
    exact ⟨hm, hc, a, b, u, v, hu, hv, .inr (.inl ⟨rfl, hr⟩)⟩
  | mul a b =>
    obtain ⟨hm, hc, u, v, hu, hv, hr⟩ := ArithTrap.arithRange h
    exact ⟨hm, hc, a, b, u, v, hu, hv, .inr (.inr ⟨rfl, hr⟩)⟩
  | _ => simp [Trap, BranchTrap, UnwrittenRegs, UnwrittenReg] at h

/-- Settles O38: the three results leave 0..255 on one side each, and no other fault of an instruction and no
refused fetch has that record. -/
theorem arithRangeExactlyUnderFault : Obligations.ArithRangeExactlyUnderFault := by
  refine ⟨fun s a b u v hu hv hm => ⟨fun hc => ?_, fun hc => ?_, fun hc => ?_⟩, fun s t r p h hr => ?_⟩
  · have hsum : arithResult .add u v = (u.toNat : Int) + v.toNat := rfl
    exact exec_of_trap (i := .add a b) (.inr ⟨u, v, hu, hv, hm, .inr (by omega), rfl⟩)
  · have hdiff : arithResult .sub u v = (u.toNat : Int) - v.toNat := rfl
    exact exec_of_trap (i := .sub a b) (.inr ⟨u, v, hu, hv, hm, .inl (by omega), rfl⟩)
  · have hprod : arithResult .mul u v = ((u.toNat * v.toNat : Nat) : Int) := (Nat.cast_mul _ _).symm
    exact exec_of_trap (i := .mul a b) (.inr ⟨u, v, hu, hv, hm, .inr (by omega), rfl⟩)
  · obtain ⟨i, rest, hf, hT⟩ | ⟨e, -, he⟩ := step_fault h hr nofun
    · obtain ⟨hm, hc, a, b, u, v, hu, hv, hi⟩ := hT.arithRange
      refine ⟨hm, hc, a, b, rest, u, v, hu, hv, ?_⟩
      obtain ⟨rfl, hr⟩ | ⟨rfl, hr⟩ | ⟨rfl, hr⟩ := hi
      · exact .inl ⟨hf, hr⟩
      · exact .inr (.inl ⟨hf, hr⟩)
      · exact .inr (.inr ⟨hf, hr⟩)
    · cases e <;> cases he

/-! ## OUT_OF_RANGE -/

theorem popNewSp_of_ne_sp {a : Reg} (s : State) (ha : a ≠ Reg.sp) : popNewSp a s = s.sp.toNat + 1 := by
  rw [popNewSp, if_neg ha]

theorem popNewSp_sp (s : State) : popNewSp Reg.sp s = s.top.toNat + 1 := by
  rw [popNewSp, if_pos rfl]

theorem popNewSp_le (a : Reg) (s : State) : popNewSp a s ≤ 256 := by
  unfold popNewSp
  split <;> omega

/-- The stack instructions alone raise OUT_OF_RANGE once decoded, of an SP or a return address one past
0..255 (R244). -/
theorem Trap.outOfRange {i : Instr} {s : State} {v : Int} {p : Pc} (h : Trap i s (.outOfRange v p))
    (hpc : s.pc.toNat + i.width ≤ 256) : p = s.pc ∧
      ((v = -1 ∧ s.sp = 0 ∧ ∃ a, i = .push a ∨ i = .call a) ∨ (v = 256 ∧ ∃ a, i = .pop a ∧ popNewSp a s = 256) ∨
       (v = 256 ∧ s.sp = 255 ∧ i = .ret) ∨ (v = 256 ∧ s.pc.toNat = 254 ∧ ∃ a, i = .call a)) := by
  cases i with
  | push a =>
    obtain ⟨-, hr⟩ | ⟨-, h0, hr⟩ := h
    · cases hr
    · cases hr
      exact ⟨rfl, .inl ⟨rfl, h0, a, .inl rfl⟩⟩
  | pop a =>
    obtain ⟨hout, hr⟩ := h
    cases hr
    have hnew : popNewSp a s = 256 := by
      have := popNewSp_le a s
      omega
    exact ⟨rfl, .inr (.inl ⟨hnew, a, rfl, hnew⟩)⟩
  | call a =>
    have hpc : s.pc.toNat + 2 ≤ 256 := hpc
    obtain ⟨-, hr⟩ | ⟨-, ⟨hra, hr⟩ | ⟨-, h0, hr⟩⟩ := h
    · cases hr
    · cases hr
      exact ⟨rfl, .inr (.inr (.inr ⟨by omega, by omega, a, rfl⟩))⟩
    · cases hr
      exact ⟨rfl, .inl ⟨rfl, h0, a, .inr rfl⟩⟩
  | ret =>
    obtain ⟨hout, hr⟩ := h
    cases hr
    exact ⟨rfl, .inr (.inr (.inl ⟨by omega, by bv_omega, rfl⟩))⟩
  | _ => simp [Trap, ArithTrap, BranchTrap, UnwrittenRegs, UnwrittenReg] at h

/-- A refused fetch raises OUT_OF_RANGE of a `pc` past the top, or of 256 for the first operand byte there. -/
theorem outOfRange_of_fetch_rejected {s : State} {e : DecodeError} {v : Int} {p : Pc} (hf : s.fetch = .rejected e)
    (he : HaltRecord.outOfRange v p = recordOf e s.pc) : p = s.pc ∧
      ((256 ≤ s.pc.toNat ∧ v = s.pc.toNat) ∨
       (v = 256 ∧ ∃ m k, s.config.opcode.dispatch (Memory.get s.mem s.pc.toNat) = some m ∧
          1 ≤ k ∧ k < m.format.width ∧ s.pc.toNat + k = 256)) := by
  obtain ⟨hpc, rfl⟩ | ⟨-, -, rfl⟩ | ⟨hpc, m, hd, ⟨hk, rfl⟩ | ⟨-, -, a, -, -, rfl⟩ | ⟨-, a, -, b, -, -, -, rfl⟩⟩ :=
    fetch_rejected hf
  · cases he
    exact ⟨rfl, .inl ⟨hpc, rfl⟩⟩
  · cases he
  · cases he
    have hlen := s.length_operandBytes
    have hw := m.format.one_le_width_le_three.2
    exact ⟨rfl, .inr ⟨by omega, m, _, hd, by omega, hk, by omega⟩⟩
  · cases he
  · cases he

/-- Settles O29: a fault of a decoded instruction or a refused fetch, each with its own rows of the table. -/
theorem outOfRangeOnlyInTheListedCases : Obligations.OutOfRangeOnlyInTheListedCases := by
  intro s t v p hpc h hr
  obtain ⟨i, rest, hf, hT⟩ | ⟨e, hf, he⟩ := step_fault h hr nofun
  · obtain ⟨hp, hcase⟩ := hT.outOfRange (pc_add_width_le hf)
    refine ⟨hp, .inr (.inr ?_)⟩
    obtain ⟨hv, h0, a, rfl | rfl⟩ | ⟨hv, a, rfl, hnew⟩ | ⟨hv, h255, rfl⟩ | ⟨hv, h254, a, rfl⟩ := hcase
    · exact .inl ⟨hv, h0, a, rest, .inl hf⟩
    · exact .inl ⟨hv, h0, a, rest, .inr hf⟩
    · exact .inr (.inl ⟨hv, a, rest, hf, hnew⟩)
    · exact .inr (.inr (.inl ⟨hv, h255, rest, hf⟩))
    · exact .inr (.inr (.inr ⟨hv, h254, a, rest, hf⟩))
  · obtain ⟨hp, ⟨htop, hv⟩ | hoperand⟩ := outOfRange_of_fetch_rejected hf he
    · exact ⟨hp, .inl ⟨by omega, by omega⟩⟩
    · exact ⟨hp, .inr (.inl hoperand)⟩

/-- A POP whose new SP is 256 faults (R174). -/
theorem exec_pop_of_popNewSp {a : Reg} {s : State} (h : popNewSp a s = 256) :
    exec (.pop a) s = raise (.outOfRange 256 s.pc) s :=
  exec_of_trap ⟨by omega, by rw [h]⟩

/-- Settles O50: each clause is one of the instruction's faults. -/
theorem stackRangeFaults : Obligations.StackRangeFaults := by
  refine fun s a => ⟨fun v hv h0 => ?_, fun v hv hpc => ?_, fun v hv hpc h0 => ?_, fun ha hsp => ?_, fun htop => ?_,
    fun hsp => ?_⟩
  · exact exec_of_trap (i := .push a) (.inr ⟨⟨v, hv⟩, h0, rfl⟩)
  · exact exec_of_trap (i := .call a) (.inr ⟨⟨v, hv⟩, .inl ⟨by omega, by rw [hpc]; rfl⟩⟩)
  · exact exec_of_trap (i := .call a) (.inr ⟨⟨v, hv⟩, .inr ⟨by omega, h0, rfl⟩⟩)
  · exact exec_pop_of_popNewSp (by rw [popNewSp_of_ne_sp s ha, hsp]; rfl)
  · exact exec_pop_of_popNewSp (by rw [popNewSp_sp, State.top, State.byteAt, htop]; rfl)
  · exact exec_of_trap (i := .ret) ⟨by rw [hsp]; decide, by rw [hsp]; rfl⟩

/-! ## UNWRITTEN_READ -/

/-- LDI, HLT, POP and RET read no register but SP and no flag. -/
theorem Trap.ne_unwrittenRead {i : Instr} {s : State} {r : HaltRecord} (h : Trap i s r)
    (hi : i.mnemonic ∈ [.ldi, .hlt, .pop, .ret]) (l : Location) (p : Pc) : r ≠ .unwrittenRead l p := by
  cases i with
  | ldi a imm => exact False.elim h
  | hlt => exact False.elim h
  | pop a => obtain ⟨-, rfl⟩ := h; exact nofun
  | ret => obtain ⟨-, rfl⟩ := h; exact nofun
  | _ => simp [Instr.mnemonic] at hi

theorem exec_ne_unwrittenRead {i : Instr} {s t : State} (hrun : s.run = .running) (h : exec i s = .next t)
    (hi : i.mnemonic ∈ [.ldi, .hlt, .pop, .ret]) (l : Location) (p : Pc) : t.run ≠ .halted (.unwrittenRead l p) := by
  intro hr
  obtain he | ⟨r, hT, rfl⟩ := exec_next h
  · obtain hkept | hok := he.run_kept_or_haltOk
    · cases hr.symm.trans (hkept.trans hrun)
    · cases hr.symm.trans hok
  · cases hr
    exact hT.ne_unwrittenRead hi l p rfl

/-- Settles O51: the first thing each reader does is to read `a`, the next to read `b` or FL. -/
theorem unwrittenReadsFault : Obligations.UnwrittenReadsFault := by
  refine ⟨fun s a ha => ⟨fun i hi => ?_, fun b i hi => ?_, fun b v hv i hi => ?_⟩, fun s a v hv hfl i hi => ?_,
    fun s t a imm l p hrun i hi h => ?_⟩
  · simp only [List.mem_cons, List.not_mem_nil, or_false] at hi
    obtain rfl | rfl | rfl | rfl | rfl | rfl := hi <;> exact withReg_unwritten ha _
  · simp only [List.mem_cons, List.not_mem_nil, or_false] at hi
    obtain rfl | rfl | rfl | rfl := hi <;> exact withReg_unwritten ha _
  · simp only [List.mem_cons, List.not_mem_nil, or_false] at hi
    obtain rfl | rfl | rfl | rfl := hi <;> exact (withReg_written hv _).trans (withReg_unwritten ha _)
  · simp only [List.mem_cons, List.not_mem_nil, or_false] at hi
    obtain rfl | rfl := hi <;> exact (withReg_written hv _).trans (withFlagE_unwritten hfl _)
  · refine exec_ne_unwrittenRead hrun h ?_ l p
    simp only [List.mem_cons, List.not_mem_nil, or_false] at hi
    obtain rfl | rfl | rfl | rfl := hi <;> simp [Instr.mnemonic]

/-! ## Memory as data -/

/-- Settles O52: a byte that a step changes is one it stores. -/
theorem memoryIsWrittenOnlyByPushAndCall : Obligations.MemoryIsWrittenOnlyByPushAndCall := by
  intro s t a h hne
  have hstores : StoresAt s t a := by_contra fun hs => hne (step_get h hs)
  obtain ⟨-, hsp, hf⟩ := hstores
  exact ⟨by omega, by omega, hf⟩

theorem State.setReg_withMem (s : State) (m : Memory) (r : Reg) (v : Byte) :
    ({ s with mem := m } : State).setReg r v = { s.setReg r v with mem := m } := by
  unfold State.setReg; split <;> rfl

/-- Two states that differ in memory at most. -/
def SameButMem (t u : State) : Prop := { u with mem := t.mem } = t

theorem ArithEffect.withMem {sel : AluSel} {a b : Reg} {s t : State} (m : Memory) (h : ArithEffect sel a b s t) :
    ∃ u, ArithEffect sel a b { s with mem := m } u ∧ SameButMem t u := by
  obtain ⟨u, v, hu, hv, hc, rfl⟩ := h
  refine ⟨_, ⟨u, v, hu, hv, hc, rfl⟩, ?_⟩
  rw [State.setReg_withMem s m]; rfl

/-- The instructions that read memory as data find the same byte at SP. -/
def SameData (i : Instr) (s : State) (m : Memory) : Prop :=
  (∃ a, i = .pop a) ∨ i = .ret → Memory.get m s.sp.toNat = Memory.get s.mem s.sp.toNat

theorem SameData.top {i : Instr} {s : State} {m : Memory} (h : SameData i s m) (hi : (∃ a, i = .pop a) ∨ i = .ret) :
    ({ s with mem := m } : State).top = s.top := h hi

theorem SameData.popNewSp {a : Reg} {s : State} {m : Memory} (h : SameData (.pop a) s m) :
    Machine.popNewSp a { s with mem := m } = Machine.popNewSp a s := by
  unfold Machine.popNewSp
  rw [h.top (.inl ⟨a, rfl⟩)]

/-- An effect under another memory is the same to everything but memory (R64). -/
theorem Effect.withMem {i : Instr} {s t : State} {m : Memory} (hm : SameData i s m) (h : Effect i s t) :
    ∃ u, Effect i { s with mem := m } u ∧ SameButMem t u := by
  cases i with
  | ldi a imm => subst h; refine ⟨_, rfl, ?_⟩; rw [State.setReg_withMem s m]; rfl
  | prn a => obtain ⟨v, hv, rfl⟩ := h; exact ⟨_, ⟨v, hv, rfl⟩, rfl⟩
  | hlt => subst h; exact ⟨_, rfl, rfl⟩
  | add a b => exact ArithEffect.withMem m h
  | sub a b => exact ArithEffect.withMem m h
  | mul a b => exact ArithEffect.withMem m h
  | push a => obtain ⟨v, hv, h0, rfl⟩ := h; exact ⟨_, ⟨v, hv, h0, rfl⟩, rfl⟩
  | pop a =>
    obtain ⟨hnew, rfl⟩ := h
    refine ⟨_, ⟨by rwa [hm.popNewSp], rfl⟩, ?_⟩
    rw [hm.popNewSp, hm.top (.inl ⟨a, rfl⟩), State.setReg_withMem s m]; rfl
  | call a => obtain ⟨v, hv, h1, h0, rfl⟩ := h; exact ⟨_, ⟨v, hv, h1, h0, rfl⟩, rfl⟩
  | ret =>
    obtain ⟨hsp, rfl⟩ := h
    refine ⟨_, ⟨hsp, rfl⟩, ?_⟩
    rw [hm.top (.inr rfl)]; rfl
  | cmp a b => obtain ⟨u, v, hu, hv, rfl⟩ := h; exact ⟨_, ⟨u, v, hu, hv, rfl⟩, rfl⟩
  | jmp a => obtain ⟨v, hv, rfl⟩ := h; exact ⟨_, ⟨v, hv, rfl⟩, rfl⟩
  | jeq a => obtain ⟨v, f, hv, hf, rfl⟩ := h; exact ⟨_, ⟨v, f, hv, hf, rfl⟩, by unfold SameButMem; split <;> rfl⟩
  | jne a => obtain ⟨v, f, hv, hf, rfl⟩ := h; exact ⟨_, ⟨v, f, hv, hf, rfl⟩, by unfold SameButMem; split <;> rfl⟩

/-- No fault of a decoded instruction depends on memory but through the byte at SP. -/
theorem Trap.withMem {i : Instr} {s : State} {r : HaltRecord} {m : Memory} (hm : SameData i s m) (h : Trap i s r) :
    Trap i { s with mem := m } r := by
  cases i with
  | pop a => rw [Trap, hm.popNewSp]; exact h
  | _ => exact h

/-- Settles O53: effects and faults alike see memory through the byte at SP alone, in POP and RET alone. -/
theorem dataIsReadOnlyByPopAndRet : Obligations.DataIsReadOnlyByPopAndRet := by
  intro i s t m hm h
  obtain he | ⟨r, hT, rfl⟩ := exec_next h
  · obtain ⟨u, hu, hs⟩ := he.withMem hm
    exact ⟨u, exec_of_effect hu, hs⟩
  · exact ⟨_, exec_of_trap (hT.withMem hm), rfl⟩

/-! ## Fetch after a store -/

/-- Where nothing is stored in between, a later fetch reads the byte that stands there now (R75). -/
theorem ReachesWithoutStore.fetchReads {t u : State} {a v : Byte} (h : ReachesWithoutStore a.toNat t u)
    (hv : Memory.get t.mem a.toNat = v) : FetchReads u a.toNat v := by
  rw [← hv, ← h.get]
  exact fetchReads_get u a.isLt

/-- Settles O54: the byte a completed PUSH or CALL stores is the top of the stack it leaves, and no step but a
store there changes it. -/
theorem fetchSeesEveryEarlierStore : Obligations.FetchSeesEveryEarlierStore := by
  intro s t u a rest hwf h hr hreach
  refine ⟨fun hf => ?_, fun hf => ?_⟩
  · have he := Effect.of_step h hf hr
    refine ⟨exec_of_effect he, ?_⟩
    obtain ⟨v, hv, -, rfl⟩ := he
    refine ⟨v, hv, hreach.fetchReads ?_⟩
    exact (Memory.get_put hwf _ _ _).trans (if_pos rfl)
  · have he := Effect.of_step h hf hr
    refine ⟨exec_of_effect he, ?_⟩
    obtain ⟨v, -, -, -, rfl⟩ := he
    refine hreach.fetchReads ?_
    exact (Memory.get_put hwf _ _ _).trans (if_pos rfl)

end Sys2Proof.Machine
end
